-- ==== Sys2Proof/Word.lean ====
section
/-! DEFINITION. The word types of the engine (00_scope.md rules R8, R9): every register, every command word and every
response word is 64 bits, the seed and the bulk length are 32-bit patterns, a context number is the 8-bit field `CTX`.
The machine has no byte-addressed memory, so no byte type and no byte order (rules R50, R53). -/

namespace Sys2Proof

/-- A 64-bit word, bit 0 least significant (rules R8, R9). -/
abbrev Word := BitVec 64

/-- A 32-bit pattern: the seed of `IMM32` (rule R75) and the length of `LEN32` (rule R74), both two's complement. -/
abbrev Pattern := BitVec 32

/-- The context number of a command, the header field `CTX` (rules R50, R71). -/
abbrev CtxNum := BitVec 8

end Sys2Proof
end

