-- ==== Sys2Proof/Config.lean ====
section
/-! DEFINITION. What an implementation fixes (00_scope.md rule R8; 92_eei_decisions.md D8, D23): the default parameters,
the number of contexts at reset, and the word a register that reset leaves unspecified holds.
There is no free value here: the spec leaves no result of a command open. -/

namespace Sys2Proof

/-- A parameter tuple `(a, c, x1, x2)`: multiplier, initial carry, initial `Y`, initial `Z` (rule R14). -/
structure Params where
  a  : Word
  c  : Word
  x1 : Word
  x2 : Word
  deriving DecidableEq, Repr

/-- `DEFAULT_A` (rules R8, R103). -/
def Config.defaultA : Word := 916905990
/-- `DEFAULT_C` (rules R8, R103). -/
def Config.defaultC : Word := 13579
/-- `DEFAULT_X1` (rules R8, R103). -/
def Config.defaultX1 : Word := 362436069
/-- `DEFAULT_X2` (rules R8, R103). -/
def Config.defaultX2 : Word := 77465321

/-- The parameters of a command that carries none (rule R103). -/
def Config.defaults : Params := ⟨Config.defaultA, Config.defaultC, Config.defaultX1, Config.defaultX2⟩

/-- DESIGN CHOICE (log 2). `NCTX` of the machine at `State.reset`: the spec leaves it OPEN in `1..256` and suggests 4 for
tests (D8). Every other definition takes the number of contexts from the state's register file. -/
def Config.nctx : Nat := 4

/-- DESIGN CHOICE (log 1). What `X`, `Y`, `Z`, `C`, `A` of a context hold after reset, where rule R36 says "unspecified"
and asks for neither zero nor the defaults. No command reads it. -/
def Config.unspecified : Word := 0x5555555555555555

end Sys2Proof
end

