-- ==== Sys2Proof/Syntax.lean ====
section
/-! DEFINITION. The commands, one constructor per row of spec/opcode_table.json (30_encoding.md rules R76, R88).
`seq`, `seqp` and `next` are the assembler's names for words of INIT, INITP and STEP: a decoder never produces them. -/

namespace Sys2Proof

/-- The commands of `XMWC-IF 1` and the three pseudo-commands. Operands are in the order of the text form of rule R87. -/
inductive Instr where
  /-- INIT: construct an instance with default parameters (rule R104). -/
  | init (k : CtxNum) (sd : Pattern)
  /-- INITP: construct an instance with supplied parameters (rule R105). -/
  | initp (k : CtxNum) (sd : Pattern) (a c x1 x2 : Word)
  /-- STEP: advance one instance and return the sample (rule R129). -/
  | step (k : CtxNum)
  /-- GEN: bulk samples with default parameters (rule R153). -/
  | gen (len : Pattern) (sd : Pattern)
  /-- GENP: bulk samples with supplied parameters (rule R154). -/
  | genp (len : Pattern) (sd : Pattern) (a c x1 x2 : Word)
  /-- SEQ: start a lazy sequence with default parameters (rule R171). -/
  | seq (k : CtxNum) (sd : Pattern)
  /-- SEQP: start a lazy sequence with supplied parameters (rule R172). -/
  | seqp (k : CtxNum) (sd : Pattern) (a c x1 x2 : Word)
  /-- NEXT: pull the next element of a lazy sequence (rule R173). -/
  | next (k : CtxNum)
  deriving DecidableEq, Repr

/-- The command whose words a pseudo-command emits (rule R88); every command stands for itself. -/
def Instr.core : Instr → Instr
  | .init k sd => .init k sd
  | .initp k sd a c x1 x2 => .initp k sd a c x1 x2
  | .step k => .step k
  | .gen len sd => .gen len sd
  | .genp len sd a c x1 x2 => .genp len sd a c x1 x2
  | .seq k sd => .init k sd
  | .seqp k sd a c x1 x2 => .initp k sd a c x1 x2
  | .next k => .step k

/-- The context a command names (rule R71): GEN and GENP name none. -/
def Instr.context : Instr → Option CtxNum
  | .init k _ => some k
  | .initp k _ _ _ _ _ => some k
  | .step k => some k
  | .gen _ _ => none
  | .genp _ _ _ _ _ _ => none
  | .seq k _ => some k
  | .seqp k _ _ _ _ _ => some k
  | .next k => some k

end Sys2Proof
end

