-- ==== Sys2Proof/WellFormed.lean ====
section
/-! DEFINITION. Which commands an engine with `nctx` contexts can be given (30_encoding.md rule R79 (c)). The must-be-zero
fields of rule R78 are no operands of `Instr`, so the range of the context number is the one check on a command's fields. -/

namespace Sys2Proof

/-- Every operand is one the engine's encoding admits: a context number is below `NCTX`. -/
def Instr.wellFormed (nctx : Nat) (i : Instr) : Bool :=
  match i.context with
  | some k => decide (k.toNat < nctx)
  | none => true

end Sys2Proof
end

