-- ==== Sys2Proof/Decode.lean ====
section
/-! DEFINITION. The decoder of 30_encoding.md rule R82, total on every command stream, rejecting by name, and the encoder
of the same tables. Words are whole: there is no byte order (20_memory.md rule R53). -/

namespace Sys2Proof

/-- Header field `OPC`, bits 63:56 (rule R71). -/
def opcField (h : Word) : BitVec 8 := h.extractLsb' 56 8
/-- Header field `CTX`, bits 55:48 (rule R71). -/
def ctxField (h : Word) : CtxNum := h.extractLsb' 48 8
/-- Header field `RSV`, bits 47:32 (rule R71). -/
def rsvField (h : Word) : BitVec 16 := h.extractLsb' 32 16
/-- Header field `IMM32`, bits 31:0 (rule R71). -/
def immField (h : Word) : Pattern := h.extractLsb' 0 32
/-- Field `LENRSV` of the `LEN` word, bits 63:32 (rule R74). -/
def lenRsvField (w : Word) : BitVec 32 := w.extractLsb' 32 32
/-- Field `LEN32` of the `LEN` word, bits 31:0 (rule R74). -/
def lenField (w : Word) : Pattern := w.extractLsb' 0 32

/-- The five opcodes (rule R76). -/
inductive Opcode where
  | init | initp | step | gen | genp
  deriving DecidableEq, Repr

/-- The value of `OPC` for each opcode (rule R76). -/
def Opcode.toByte : Opcode → BitVec 8
  | .init => 0x01
  | .initp => 0x02
  | .step => 0x03
  | .gen => 0x04
  | .genp => 0x05

/-- The opcode a value of `OPC` stands for; `0x00` and `0x06` to `0xFF` stand for none (rule R76). -/
def Opcode.ofByte (b : BitVec 8) : Option Opcode :=
  if b = 0x01 then some .init
  else if b = 0x02 then some .initp
  else if b = 0x03 then some .step
  else if b = 0x04 then some .gen
  else if b = 0x05 then some .genp
  else none

/-- Words of a command with a known opcode, header included (rules R72, R77). -/
def Opcode.words : Opcode → Nat
  | .init => 1
  | .initp => 5
  | .step => 1
  | .gen => 2
  | .genp => 6

/-- `L(OPC)`: the length of a command from its header's opcode; 1 for an unknown one (rule R77). -/
def cmdLength (b : BitVec 8) : Nat :=
  match Opcode.ofByte b with
  | some o => o.words
  | none => 1

/-- Why a command is illegal: the six conditions of rule R79. All six get the same response. -/
inductive IllegalCause where
  /-- (a) unknown opcode -/
  | unknownOpcode
  /-- (b) `RSV` not zero -/
  | reservedNotZero
  /-- (c) `CTX` not below `NCTX` in INIT, INITP, STEP -/
  | contextOutOfRange
  /-- (d) `CTX` not zero in GEN, GENP -/
  | contextNotZero
  /-- (e) `IMM32` not zero in STEP -/
  | immediateNotZero
  /-- (f) `LENRSV` not zero in GEN, GENP -/
  | lengthReservedNotZero
  deriving DecidableEq, Repr

/-- What the decoder makes of a command stream (rule R82). -/
inductive Decoded where
  /-- the stream is empty: the engine's step is not enabled -/
  | idle
  /-- the stream ends inside a command: the engine's step is not enabled (rule R81) -/
  | wait
  /-- an illegal command, and the stream after its words (rule R79) -/
  | illegal (why : IllegalCause) (rest : List Word)
  /-- a command, and the stream after its words -/
  | command (i : Instr) (rest : List Word)
  deriving DecidableEq, Repr

/-- `cmd[i]`: word `i` of a whole command (rule R12). A whole command has every word its opcode asks for. -/
def cmdWord (cmd : List Word) (i : Nat) : Word := cmd.getD i 0

/-- The tests of rule R79 on a whole command, in the order of rule R82, and the command where none holds. -/
def readCommand (nctx : Nat) (cmd : List Word) : Except IllegalCause Instr :=
  let h := cmdWord cmd 0
  let k := ctxField h
  let sd := immField h
  match Opcode.ofByte (opcField h) with
  | none => .error .unknownOpcode
  | some o =>
    if rsvField h ≠ 0 then .error .reservedNotZero
    else match o with
    | .init =>
      if nctx ≤ k.toNat then .error .contextOutOfRange
      else .ok (.init k sd)
    | .initp =>
      if nctx ≤ k.toNat then .error .contextOutOfRange
      else .ok (.initp k sd (cmdWord cmd 1) (cmdWord cmd 2) (cmdWord cmd 3) (cmdWord cmd 4))
    | .step =>
      if nctx ≤ k.toNat then .error .contextOutOfRange
      else if sd ≠ 0 then .error .immediateNotZero
      else .ok (.step k)
    | .gen =>
      if k ≠ 0 then .error .contextNotZero
      else if lenRsvField (cmdWord cmd 1) ≠ 0 then .error .lengthReservedNotZero
      else .ok (.gen (lenField (cmdWord cmd 1)) sd)
    | .genp =>
      if k ≠ 0 then .error .contextNotZero
      else if lenRsvField (cmdWord cmd 1) ≠ 0 then .error .lengthReservedNotZero
      else .ok (.genp (lenField (cmdWord cmd 1)) sd
        (cmdWord cmd 2) (cmdWord cmd 3) (cmdWord cmd 4) (cmdWord cmd 5))

/-- The decoder of an engine with `nctx` contexts on the command stream `ws` (rule R82). -/
def decode (nctx : Nat) (ws : List Word) : Decoded :=
  match ws with
  | [] => .idle
  | h :: _ =>
    let n := cmdLength (opcField h)
    if ws.length < n then .wait
    else match readCommand nctx (ws.take n) with
      | .error why => .illegal why (ws.drop n)
      | .ok i => .command i (ws.drop n)

/-- A header word from its fields, `RSV` zero (rule R71). -/
def header (o : Opcode) (k : CtxNum) (imm : Pattern) : Word := o.toByte ++ k ++ (0 : BitVec 16) ++ imm

/-- A `LEN` word, `LENRSV` zero (rule R74). -/
def lenWord (len : Pattern) : Word := len.setWidth 64

/-- The words of a command (rules R71, R72, R76; R88 for the pseudo-commands, which emit the words of their core). -/
def encode : Instr → List Word
  | .init k sd => [header .init k sd]
  | .initp k sd a c x1 x2 => [header .initp k sd, a, c, x1, x2]
  | .step k => [header .step k 0]
  | .gen len sd => [header .gen 0 sd, lenWord len]
  | .genp len sd a c x1 x2 => [header .genp 0 sd, lenWord len, a, c, x1, x2]
  | .seq k sd => [header .init k sd]
  | .seqp k sd a c x1 x2 => [header .initp k sd, a, c, x1, x2]
  | .next k => [header .step k 0]

/-- The six words (the longest command) of an instruction whose bits are the low `nbits` bits of `w`, bit 0 the least
significant bit of the FIRST word and later words counting on from it; the bits above are zero. -/
def tableWords (nbits w : Nat) : List Word :=
  let v := w % 2 ^ nbits
  [BitVec.ofNat 64 v, BitVec.ofNat 64 (v / 2 ^ 64), BitVec.ofNat 64 (v / 2 ^ 128), BitVec.ofNat 64 (v / 2 ^ 192),
   BitVec.ofNat 64 (v / 2 ^ 256), BitVec.ofNat 64 (v / 2 ^ 320)]

/-- The words of exactly the instruction at the head of `tableWords` (rule R77). -/
def tableCommand (nbits w : Nat) : List Word :=
  (tableWords nbits w).take (cmdLength (opcField (BitVec.ofNat 64 (w % 2 ^ nbits))))

/-- The instruction the decoder reads from bits `w` of an instruction that the opcode table gives `nbits` bits, on the
engine of `State.reset` (`Config.nctx` contexts); none where it refuses. -/
def decodeTableWord (nbits w : Nat) : Option Instr :=
  match decode Config.nctx (tableCommand nbits w) with
  | .command i _ => some i
  | _ => none

end Sys2Proof
end

