-- ==== Sys2Proof/Machine/State.lean ====
section
/-! DEFINITION. The state of the engine as plain data (10_state.md rules R20 to R36): the register file of contexts, the
command stream and the response stream, and beside them the model's own schedule of turns (log 3). -/

namespace Sys2Proof.Machine

/-- The five 64-bit registers of a context (rules R21 to R25): everything a step reads. -/
structure Regs where
  /-- `X`: the word the next step multiplies (rule R21) -/
  x : Word
  /-- `Y` (rule R22) -/
  y : Word
  /-- `Z`: after a step, the 32-bit integer of its output (rule R23) -/
  z : Word
  /-- `C`: the running carry, a full word (rule R24) -/
  c : Word
  /-- `A`: the multiplier, written only by an initialisation (rule R25) -/
  a : Word
  deriving DecidableEq, Repr

/-- One context of the register file (rule R20). -/
structure Context where
  /-- `V`: the context holds an engine instance (rule R26) -/
  v : Bool
  regs : Regs
  deriving DecidableEq, Repr

/-- What the host can do to the machine (20_memory.md rule R55; 70_reset_and_hazards.md rule R241). -/
inductive HostMove where
  /-- append words at the tail of the command stream (rule R51) -/
  | append (ws : List Word)
  /-- remove the word at the head of the response stream (rule R52) -/
  | remove
  /-- the reset event (rule R230) -/
  | reset
  deriving DecidableEq, Repr

/-- Whose turn a step is (rule R55). -/
inductive Turn where
  | engine
  | host (m : HostMove)
  deriving DecidableEq, Repr

/-- The state of the machine. -/
structure State where
  /-- The register file: context `k` is entry `k`, and `NCTX` is the length (rules R8, R20). -/
  ctxs : List Context
  /-- The command stream, head first (rules R35, R51). -/
  cmds : List Word
  /-- The response stream, head first (rules R35, R52). -/
  rsps : List Word
  /-- DESIGN CHOICE, the MODEL's own field (log 3): whose turns come next, head first. When it is empty every turn is
  the engine's. -/
  schedule : List Turn
  deriving DecidableEq, Repr

/-- `NCTX`, the number of contexts of this machine (rule R8). -/
def State.nctx (s : State) : Nat := s.ctxs.length

/-- Why the machine stops with a fault: never. Each abnormal condition of the engine is a response, after which it goes
on (60_exceptions.md rules R200, R206, R217), so there is no constructor and nobody raises one. -/
inductive Fault where
  deriving DecidableEq, Repr

/-- Why an instruction has no meaning. -/
inductive Refusal where
  /-- Raised by an arm of `exec` whose instruction has no meaning yet; safe. No arm of this model raises it. -/
  | notModelled (mnemonic : String)
  deriving DecidableEq, Repr

/-- A context after reset: `V = 0`; the five registers are unspecified (rule R36) and hold the word of log 1 (DESIGN
CHOICE). -/
def Context.reset : Context :=
  ⟨false, ⟨Config.unspecified, Config.unspecified, Config.unspecified, Config.unspecified, Config.unspecified⟩⟩

/-- The machine after reset with `n` contexts: no instance, both streams empty (rules R36, R230, R231). -/
def State.resetWith (n : Nat) : State := ⟨List.replicate n Context.reset, [], [], []⟩

/-- The machine right after reset, with the number of contexts of log 2. -/
def State.reset : State := State.resetWith Config.nctx

end Sys2Proof.Machine
end

