-- ==== Sys2Proof/Machine/Datapath.lean ====
section
/-! DEFINITION. The step's datapath (41_step.md rules R121 to R127): multiply with carry, modular reduction, register
shift, conversion of the new 32-bit integer to a binary64 word. No exclusive-or anywhere (rule R3). -/

namespace Sys2Proof.Machine

/-- `mul64`: the low 64 bits of the unsigned product (rules R10, R122). -/
def mul64 (a b : Word) : Word := a * b

/-- `add64`: the sum modulo `2^64` (rules R10, R123). -/
def add64 (a b : Word) : Word := a + b

/-- `t = (A * X + C) mod 2^64` (rules R121 to R123). -/
def stepSum (r : Regs) : Word := add64 (mul64 r.a r.x) r.c

/-- `C' = t >> 32` (rule R124). -/
def carryWord (t : Word) : Word := t >>> 32

/-- `Z' = t & 0xFFFFFFFF` (rule R124). -/
def lowWord (t : Word) : Word := t &&& 0xFFFFFFFF

/-- `f64bits(z)` for `z < 2^32`: the binary64 pattern of `z / 2^32` (rule R127). -/
def f64bits (z : Word) : Word :=
  if z = 0 then 0
  else
    let k := z.toNat.log2
    let e : Word := BitVec.ofNat 64 (991 + k)
    let m : Word := (z - BitVec.ofNat 64 (2 ^ k)) <<< (52 - k)
    (e <<< 52) ||| m

/-- `step_fn`: the registers after one step, `A` unchanged, and the output word (rule R121). -/
def stepFn (r : Regs) : Regs × Word :=
  let t := stepSum r
  (⟨r.y, r.z, lowWord t, carryWord t, r.a⟩, f64bits (lowWord t))

/-- `gen_fn` from given starting words: the outputs of `n` steps, first sample first (42_bulk.md rule R151). -/
def genFn : Nat → Regs → List Word
  | 0, _ => []
  | n + 1, r => (stepFn r).2 :: genFn n (stepFn r).1

end Sys2Proof.Machine
end

