-- ==== Sys2Proof/Machine/Operands.lean ====
section
/-! DEFINITION. The operand forms of the commands: the seed, the parameter check, the bulk length (40_construct.md rules
R101 to R103; 30_encoding.md rules R74, R75). -/

namespace Sys2Proof.Machine

/-- `seedword(s)`: zero-seed substitution, then zero extension (rule R101). -/
def seedword (sd : Pattern) : Word :=
  let s1 : Pattern := if sd = 0 then 1 else sd
  s1.setWidth 64

/-- `param_ok(a, c)`: `a >u c`, unsigned and strict (rule R102). -/
def paramOk (a c : Word) : Bool := c.ult a

/-- `len = signed_32(LEN32)` (rules R74, R153). -/
def bulkLen (len : Pattern) : Int := len.toInt

/-- The five words an instance starts from (rules R105, R151): the same for INITP and for GENP. -/
def freshRegs (sd : Pattern) (p : Params) : Regs := ⟨seedword sd, p.x1, p.x2, p.c, p.a⟩

end Sys2Proof.Machine
end

