-- ==== Sys2Proof/Machine/Ops.lean ====
section
/-! DEFINITION. The named operations over the state: access to a context, the primitives `Respond` and `raise` of
00_scope.md rule R12, and the host's moves. `raise` is the engine's only counterpart of taking an exception
(60_exceptions.md rule R205); there is no return from it (rule R209), so no operation for one. -/

namespace Sys2Proof.Machine

/-- The four error kinds (rules R200 to R204). -/
inductive ErrorKind where
  | invalidParameter | invalidArgument | notInitialised | illegalCommand
  deriving DecidableEq, Repr

/-- Status codes of the error kinds (rule R85). -/
def ErrorKind.code : ErrorKind → BitVec 8
  | .invalidParameter => 0x01
  | .invalidArgument => 0x02
  | .notInitialised => 0x03
  | .illegalCommand => 0x04

/-- The status `OK` (rule R85). -/
def statusOk : BitVec 8 := 0x00

/-- Context `k` of the register file; none where the machine has no such context (rule R50). -/
def State.ctx? (s : State) (k : CtxNum) : Option Context := s.ctxs[k.toNat]?

/-- All six registers of context `k` written at once (rule R11); no other context changes (rule R28). -/
def State.setCtx (s : State) (k : CtxNum) (c : Context) : State := { s with ctxs := s.ctxs.set k.toNat c }

/-- A response header: `(status << 56) | length(data)` (rule R84). -/
def responseHeader (status : BitVec 8) (count : Nat) : Word :=
  (status.setWidth 64 <<< 56) ||| BitVec.ofNat 64 count

/-- `Respond(status, data)`: append the header and the data words to the response stream (rules R12, R84). -/
def State.respond (s : State) (status : BitVec 8) (data : List Word) : State :=
  { s with rsps := s.rsps ++ responseHeader status data.length :: data }

/-- `raise <Error>`: write nothing to the register file and respond with the code and no data (rules R12, R205). -/
def State.raise (s : State) (e : ErrorKind) : State := s.respond e.code []

/-- Act on context `k`. DESIGN CHOICE (log 7): a number that names no context is rule R79 (c): `IllegalCommand`, which
the decoder already answers, and which a meaning answers too, so that it has an effect on every operand. -/
def State.withCtx (s : State) (k : CtxNum) (f : Context → State) : State :=
  match s.ctx? k with
  | some c => f c
  | none => s.raise .illegalCommand

/-- The reset event (rules R230 to R232): every context as after reset, both streams empty. The schedule is the
environment's and stays. -/
def State.resetEvent (s : State) : State :=
  { s with ctxs := s.ctxs.map fun _ => Context.reset, cmds := [], rsps := [] }

/-- One move of the host (rule R55). Removing from an empty response stream is not enabled (rule R58): nothing
happens (DESIGN CHOICE, log 5). -/
def State.hostMove (s : State) : HostMove → State
  | .append ws => { s with cmds := s.cmds ++ ws }
  | .remove => { s with rsps := s.rsps.tail }
  | .reset => s.resetEvent

end Sys2Proof.Machine
end

