-- ==== Sys2Proof/Machine/Flags.lean ====
section
/-! DEFINITION. The one flag of the engine is the valid flag `V[k]` (10_state.md rules R26, R31): there is no carry, zero,
overflow or condition flag. It is set by a successful initialisation, read by STEP and NEXT, and cleared by reset alone. -/

namespace Sys2Proof.Machine

/-- What a successful initialisation leaves in its context: the fresh words and `V = 1` (rules R26, R104, R105). -/
def freshContext (sd : Pattern) (p : Params) : Context := ⟨true, freshRegs sd p⟩

/-- Act on the instance in context `k`; `V[k] = 0` raises `NotInitialised` (rules R129, R203). -/
def State.withInstance (s : State) (k : CtxNum) (f : Regs → State) : State :=
  s.withCtx k fun c => if c.v then f c.regs else s.raise .notInitialised

end Sys2Proof.Machine
end

