-- ==== Sys2Proof/Machine/Bulk.lean ====
section
/-! DEFINITION. Bulk generation: GEN and GENP (42_bulk.md rules R150 to R159). No register of any context is read or
written (rule R155); the samples are the response's data words (rule R152). -/

namespace Sys2Proof.Machine

/-- The bulk response: a negative length raises `InvalidArgument`, else `len` samples from fresh words (rules R151,
R156). -/
def State.bulk (s : State) (len sd : Pattern) (p : Params) : State :=
  if bulkLen len < 0 then s.raise .invalidArgument
  else s.respond statusOk (genFn (bulkLen len).toNat (freshRegs sd p))

/-- Bulk generation with supplied parameters: the parameter check comes first (rules R154, R157). -/
def State.bulkWith (s : State) (len sd : Pattern) (p : Params) : State :=
  if paramOk p.a p.c then s.bulk len sd p else s.raise .invalidParameter

/-- GEN (rule R153). -/
def execGen (len sd : Pattern) (s : State) : Host.Outcome State Fault Refusal :=
  .next (s.bulk len sd Config.defaults)

/-- GENP (rule R154). -/
def execGenp (len sd : Pattern) (a c x1 x2 : Word) (s : State) : Host.Outcome State Fault Refusal :=
  .next (s.bulkWith len sd ⟨a, c, x1, x2⟩)

end Sys2Proof.Machine
end

