-- ==== Sys2Proof/Machine/Construct.lean ====
section
/-! DEFINITION. Construction and seeding: INIT and INITP (40_construct.md rules R104 to R111). -/

namespace Sys2Proof.Machine

/-- Write a fresh instance into context `k`, whatever it held, and respond `OK` (rules R104, R105, R107). -/
def State.construct (s : State) (k : CtxNum) (sd : Pattern) (p : Params) : State :=
  (s.setCtx k (freshContext sd p)).respond statusOk []

/-- Construction with the default parameters (rules R103, R104). -/
def State.constructDefault (s : State) (k : CtxNum) (sd : Pattern) : State :=
  s.withCtx k fun _ => s.construct k sd Config.defaults

/-- Construction with supplied parameters: `a <=u c` raises `InvalidParameter` before any write (rules R105, R106). -/
def State.constructWith (s : State) (k : CtxNum) (sd : Pattern) (p : Params) : State :=
  s.withCtx k fun _ => if paramOk p.a p.c then s.construct k sd p else s.raise .invalidParameter

/-- INIT (rule R104). -/
def execInit (k : CtxNum) (sd : Pattern) (s : State) : Host.Outcome State Fault Refusal :=
  .next (s.constructDefault k sd)

/-- INITP (rule R105). -/
def execInitp (k : CtxNum) (sd : Pattern) (a c x1 x2 : Word) (s : State) : Host.Outcome State Fault Refusal :=
  .next (s.constructWith k sd ⟨a, c, x1, x2⟩)

end Sys2Proof.Machine
end

