-- ==== Sys2Proof/Machine/Stepping.lean ====
section
/-! DEFINITION. Stepping one instance: STEP (41_step.md rules R129, R130). -/

namespace Sys2Proof.Machine

/-- Advance the instance in context `k` by one step and respond with the sample; the four state words are written
together, `A` and `V` keep their values (rules R129, R130, R138). -/
def State.advance (s : State) (k : CtxNum) : State :=
  s.withInstance k fun r => (s.setCtx k ⟨true, (stepFn r).1⟩).respond statusOk [(stepFn r).2]

/-- STEP (rule R129). -/
def execStep (k : CtxNum) (s : State) : Host.Outcome State Fault Refusal :=
  .next (s.advance k)

end Sys2Proof.Machine
end

