-- ==== Sys2Proof/Machine/Lazy.lean ====
section
/-! DEFINITION. The lazy sequence: SEQ, SEQP and NEXT (43_lazy.md rules R170 to R178), the assembler's names for INIT,
INITP and STEP on a context the host sets aside (30_encoding.md rule R88). -/

namespace Sys2Proof.Machine

/-- SEQ (rule R171): `SEQ k, s` is `INIT k, s`. -/
def execSeq (k : CtxNum) (sd : Pattern) (s : State) : Host.Outcome State Fault Refusal :=
  .next (s.constructDefault k sd)

/-- SEQP (rule R172): `SEQP k, s, a, c, x1, x2` is `INITP k, s, a, c, x1, x2`. -/
def execSeqp (k : CtxNum) (sd : Pattern) (a c x1 x2 : Word) (s : State) : Host.Outcome State Fault Refusal :=
  .next (s.constructWith k sd ⟨a, c, x1, x2⟩)

/-- NEXT (rule R173): `NEXT k` is `STEP k`. -/
def execNext (k : CtxNum) (s : State) : Host.Outcome State Fault Refusal :=
  .next (s.advance k)

end Sys2Proof.Machine
end

