-- ==== Sys2Proof/Machine/Dispatch.lean ====
section
/-! DEFINITION. The dispatch from a command to its meaning. -/

namespace Sys2Proof.Machine

def exec (i : Instr) (s : State) : Host.Outcome State Fault Refusal :=
  match i with
  | .init k sd => Sys2Proof.Machine.execInit k sd s
  | .initp k sd a c x1 x2 => Sys2Proof.Machine.execInitp k sd a c x1 x2 s
  | .step k => Sys2Proof.Machine.execStep k s
  | .gen len sd => Sys2Proof.Machine.execGen len sd s
  | .genp len sd a c x1 x2 => Sys2Proof.Machine.execGenp len sd a c x1 x2 s
  | .seq k sd => Sys2Proof.Machine.execSeq k sd s
  | .seqp k sd a c x1 x2 => Sys2Proof.Machine.execSeqp k sd a c x1 x2 s
  | .next k => Sys2Proof.Machine.execNext k s

end Sys2Proof.Machine
end

