-- ==== Sys2Proof/Machine/Fetch.lean ====
section
/-! DEFINITION. One turn of the machine: the engine removes a whole command from the head of the command stream and
executes it (20_memory.md rules R55 to R57; 30_encoding.md rules R81, R82), or the host makes a move. -/

namespace Sys2Proof.Machine

/-- The engine's turn. An empty stream or a command whose last word has not arrived leaves everything as it is (rule
R81; DESIGN CHOICE, log 5); an illegal command loses its words and raises `IllegalCommand` (rule R79); a command is
executed with its words removed. -/
def State.engineTurn (s : State) : Host.Outcome State Fault Refusal :=
  match decode s.nctx s.cmds with
  | .idle => .next s
  | .wait => .next s
  | .illegal _ rest => .next ({ s with cmds := rest }.raise .illegalCommand)
  | .command i rest => exec i { s with cmds := rest }

/-- One turn of whichever agent the schedule names; the engine's when it names none (rule R55, log 3). -/
def State.turn (s : State) : Host.Outcome State Fault Refusal :=
  match s.schedule with
  | [] => s.engineTurn
  | .engine :: ts => { s with schedule := ts }.engineTurn
  | .host m :: ts => .next ({ s with schedule := ts }.hostMove m)

/-- The schedule with the engine's turn first. -/
def engineFirst : List Turn → List Turn
  | [] => []
  | t :: ts => .engine :: t :: ts

end Sys2Proof.Machine
end

