-- ==== Sys2Proof/Machine/Step.lean ====
section
/-! DEFINITION. The step of the machine, and the state with a given command where the next step fetches it. -/

namespace Sys2Proof.Machine

/-- One step: one turn of one agent (rule R55). -/
def step (s : State) : Host.Outcome State Fault Refusal := s.turn

/-- `s` with the words of the instruction of bits `w` at the head of the command stream, and the engine's turn next
(DESIGN CHOICE, log 6). Nothing else changes: later words of the stream and later turns stay behind them. -/
def State.withFetchWord (s : State) (nbits w : Nat) : State :=
  { s with cmds := tableCommand nbits w ++ s.cmds, schedule := engineFirst s.schedule }

end Sys2Proof.Machine
end

