-- ==== Sys2Proof/Safety.lean ====
section
/-! DEFINITION. The terms claims are stated in: the stream of an instance, the canonical states, the invariant of the
machine, what a response is, running a list of commands, and what a host cannot see. -/

namespace Sys2Proof.Machine

/-- The registers after `n` steps (rule R121 applied again and again, rule R180). -/
def advanceN : Nat → Regs → Regs
  | 0, r => r
  | n + 1, r => advanceN n (stepFn r).1

/-- The stream of rule R180 from words `r`, counted from 0: `streamOut r j` is the output of step `j + 1`. -/
def streamOut (r : Regs) (j : Nat) : Word := (stepFn (advanceN j r)).2

/-- `D_A` of rule R188 with `A` the multiplier of `r`, for `1 <= A < 2^32`: `X, Y, Z < 2^32` and `C < A`. -/
def Regs.Canonical (r : Regs) : Prop :=
  1 ≤ r.a.toNat ∧ r.a.toNat < 2 ^ 32 ∧ r.x.toNat < 2 ^ 32 ∧ r.y.toNat < 2 ^ 32 ∧ r.z.toNat < 2 ^ 32 ∧
    r.c.toNat < r.a.toNat

/-- The state words are all zero (rule R188). -/
def Regs.AllZero (r : Regs) : Prop := r.x = 0 ∧ r.y = 0 ∧ r.z = 0 ∧ r.c = 0

/-- What every living instance keeps (rules R27, R101, R102, R124): the multiplier is not zero, and the words are either
still those of the construction (`X` a conditioned seed, `C` below `A`) or narrowed by a step (`Z`, `C` below `2^32`). -/
def Regs.Lawful (r : Regs) : Prop :=
  r.a ≠ 0 ∧
    ((r.x ≠ 0 ∧ r.x.toNat < 2 ^ 32 ∧ r.c.toNat < r.a.toNat) ∨ (r.z.toNat < 2 ^ 32 ∧ r.c.toNat < 2 ^ 32))

/-- The invariant of the machine: a legal number of contexts (rule R8), and every valid context lawful. -/
def State.Inv (s : State) : Prop :=
  (1 ≤ s.nctx ∧ s.nctx ≤ 256) ∧ ∀ c ∈ s.ctxs, c.v = true → c.regs.Lawful

/-- The engine has the next turn, and `ts` is the schedule after it. -/
def State.EngineMoves (s : State) (ts : List Turn) : Prop :=
  (s.schedule = [] ∧ ts = []) ∨ s.schedule = .engine :: ts

/-- `STATUS`, bits 63:56 of a response header, as a number (rule R84). -/
def statusOf (h : Word) : Nat := h.toNat / 2 ^ 56
/-- `RZERO`, bits 55:32 of a response header, as a number (rule R84). -/
def rzeroOf (h : Word) : Nat := h.toNat / 2 ^ 32 % 2 ^ 24
/-- `COUNT`, bits 31:0 of a response header, as a number (rule R84). -/
def countOf (h : Word) : Nat := h.toNat % 2 ^ 32

/-- A whole response (rules R83 to R85): a header with a status code the engine produces, `RZERO` zero, and as many data
words as `COUNT` says, none of them with an error. -/
def IsResponse (h : Word) (data : List Word) : Prop :=
  statusOf h ≤ 4 ∧ rzeroOf h = 0 ∧ countOf h = data.length ∧ (statusOf h ≠ 0 → data = [])

/-- Run commands one after another (rule R57), stopping at a fault or a refusal. -/
def runCmds : List Instr → State → Host.Outcome State Fault Refusal
  | [], s => .next s
  | i :: is, s =>
    match exec i s with
    | .next t => runCmds is t
    | .fault r => .fault r
    | .refused r => .refused r

/-- Each command of a run with the words it appended to the response stream: its response (rule R59 (b)). -/
def answers : List Instr → State → List (Instr × List Word)
  | [], _ => []
  | i :: is, s =>
    match exec i s with
    | .next t => (i, t.rsps.drop s.rsps.length) :: answers is t
    | .fault _ => []
    | .refused _ => []

/-- The response is an `OK` (rule R85). -/
def answeredOk (ans : List Word) : Bool := decide (statusOf (ans.headD 0) = 0)

/-- The commands of a run whose response is an `OK` (rule R191). -/
def succeeding (is : List Instr) (s : State) : List Instr :=
  ((answers is s).filter fun p => answeredOk p.2).map fun p => p.1

/-- The command initialises context `k` when it succeeds: INIT, INITP, SEQ, SEQP on `k` with acceptable parameters. -/
def initialises (k : CtxNum) : Instr → Bool
  | .init j _ => decide (j = k)
  | .initp j _ a c _ _ => decide (j = k ∧ c.toNat < a.toNat)
  | .step _ => false
  | .gen _ _ => false
  | .genp _ _ _ _ _ _ => false
  | .seq j _ => decide (j = k)
  | .seqp j _ a c _ _ => decide (j = k ∧ c.toNat < a.toNat)
  | .next _ => false

/-- The command pulls a sample of context `k`: STEP or NEXT on `k`. -/
def pulls (k : CtxNum) (i : Instr) : Bool := decide (i = .step k ∨ i = .next k)

/-- Words that parse into whole commands with nothing left over (rule R235). -/
def ParsesWhole (ws : List Word) : Prop :=
  ∃ cmds : List (List Word), ws = cmds.flatten ∧
    ∀ cmd ∈ cmds, ∃ h tl, cmd = h :: tl ∧ cmd.length = cmdLength (opcField h)

/-- Two contexts that differ at most in registers the spec leaves unspecified: those of an invalid context (rule R36). -/
def Context.SameSeen (c d : Context) : Prop := c.v = d.v ∧ (c.v = true → c.regs = d.regs)

/-- Two states that differ at most in registers of invalid contexts. -/
def State.SameSeen (s t : State) : Prop :=
  List.Forall₂ Context.SameSeen s.ctxs t.ctxs ∧ s.cmds = t.cmds ∧ s.rsps = t.rsps ∧ s.schedule = t.schedule

end Sys2Proof.Machine
end

