-- ==== Sys2Proof/Certificates/Slice0/Obligations.lean ====
section
/-! DEFINITION. The statements for the provers. Each docstring names the rules of spec/ it formalises. -/

open Sys2Proof Sys2Proof.Machine

/-! ## The functions of the datapath and of the operands -/

/-- R101. -/
def Obligations.SeedwordSubstitutesZeroAndZeroExtends : Prop :=
  ∀ sd : Pattern,
    (seedword sd).toNat = (if sd.toNat = 0 then 1 else sd.toNat) ∧
    1 ≤ (seedword sd).toNat ∧ (seedword sd).toNat ≤ 2 ^ 32 - 1

/-- R121, R124, R125, R126: the recurrence with every width explicit, on numbers. -/
def Obligations.StepFnFollowsTheRecurrence : Prop :=
  ∀ r : Regs,
    let t := (r.a.toNat * r.x.toNat + r.c.toNat) % 2 ^ 64
    (stepFn r).1.x = r.y ∧ (stepFn r).1.y = r.z ∧
    (stepFn r).1.c.toNat = t / 2 ^ 32 ∧ (stepFn r).1.z.toNat = t % 2 ^ 32 ∧
    (stepFn r).1.a = r.a ∧
    (stepFn r).2 = f64bits (BitVec.ofNat 64 (t % 2 ^ 32))

/-- An inference the spec marks as its own (R134, "Limb form of the multiplier"): the product from 32-bit limbs. -/
def Obligations.MultiplierHasItsLimbForm : Prop :=
  ∀ a x : Word,
    let aH := a.toNat / 2 ^ 32
    let aL := a.toNat % 2 ^ 32
    let xH := x.toNat / 2 ^ 32
    let xL := x.toNat % 2 ^ 32
    (mul64 a x).toNat = (aL * xL + ((aH * xL + aL * xH) % 2 ^ 32) * 2 ^ 32) % 2 ^ 64 ∧
    (aH = 0 → xH = 0 → (mul64 a x).toNat = aL * xL)

/-- An inference the spec marks as its own (R131, "No wrap in the canonical domain"): no wrap in the canonical domain;
after three steps only a wide multiplier can wrap; none with the defaults. -/
def Obligations.CanonicalDomainNeverWraps : Prop :=
  (∀ r : Regs, r.a.toNat < 2 ^ 32 → r.x.toNat < 2 ^ 32 → r.c.toNat < 2 ^ 32 →
    (mul64 r.a r.x).toNat = r.a.toNat * r.x.toNat ∧
    (stepSum r).toNat = r.a.toNat * r.x.toNat + r.c.toNat ∧
    r.a.toNat * r.x.toNat + r.c.toNat ≤ 2 ^ 64 - 2 ^ 32) ∧
  (∀ (r : Regs) (n : Nat), 3 ≤ n → r.a.toNat < 2 ^ 32 →
    (stepSum (advanceN n r)).toNat = r.a.toNat * (advanceN n r).x.toNat + (advanceN n r).c.toNat) ∧
  (∀ (sd : Pattern) (n : Nat),
    let r := advanceN n ⟨seedword sd, 362436069, 77465321, 13579, 916905990⟩
    (stepSum r).toNat = 916905990 * r.x.toNat + r.c.toNat)

/-- An inference the spec marks as its own (R132, "Bounds"): the bounds of the new words, and the largest sum of the
canonical domain. -/
def Obligations.StepWordsAreBounded : Prop :=
  (∀ r : Regs, (stepFn r).1.z.toNat ≤ 2 ^ 32 - 1 ∧ (stepFn r).1.c.toNat ≤ 2 ^ 32 - 1) ∧
  (∀ r : Regs, r.a.toNat < 2 ^ 32 → r.x.toNat < 2 ^ 32 → r.c.toNat < r.a.toNat →
    (stepFn r).1.c.toNat ≤ r.a.toNat - 1) ∧
  (∀ r : Regs, r.a.toNat < 2 ^ 32 → r.x.toNat < 2 ^ 32 → r.c.toNat < 2 ^ 32 →
    (stepSum r).toNat ≤ 0xFFFFFFFF00000000) ∧
  (∀ y z : Word, stepSum ⟨0xFFFFFFFF, y, z, 0xFFFFFFFF, 0xFFFFFFFF⟩ = 0xFFFFFFFF00000000)

/-- R127's pattern, and what the spec marks as its own inference there (from general knowledge of binary64, G1): it is
exactly the number `z / 2^32`. -/
def Obligations.F64bitsIsTheExactBinary64Pattern : Prop :=
  f64bits 0 = 0 ∧
  ∀ (z : Word) (k : Nat), z.toNat < 2 ^ 32 → 2 ^ k ≤ z.toNat → z.toNat < 2 ^ (k + 1) →
    (f64bits z).toNat = (991 + k) * 2 ^ 52 + (z.toNat - 2 ^ k) * 2 ^ (52 - k) ∧
    (f64bits z).toNat % 2 ^ 21 = 0 ∧
    (2 ^ 52 + (f64bits z).toNat % 2 ^ 52) * 2 ^ 32 = z.toNat * 2 ^ (84 - k)

/-- An inference the spec marks as its own (R128): the range of the output words and the way back from them. -/
def Obligations.F64bitsRangeAndInverse : Prop :=
  (∀ z : Word, z.toNat < 2 ^ 32 →
    (f64bits z).toNat ≤ 0x3FEFFFFFFFE00000 ∧
    (z ≠ 0 → 0x3DF0000000000000 ≤ (f64bits z).toNat ∧
      (2 ^ 52 + (f64bits z).toNat % 2 ^ 52) / 2 ^ (1043 - (f64bits z).toNat / 2 ^ 52) = z.toNat)) ∧
  (∀ y z : Word, y.toNat < 2 ^ 32 → z.toNat < 2 ^ 32 → f64bits y = f64bits z → y = z) ∧
  f64bits 0xFFFFFFFF = 0x3FEFFFFFFFE00000 ∧ f64bits 1 = 0x3DF0000000000000 ∧
  f64bits 0x80000000 = 0x3FE0000000000000

/-! ## Results of the commands -/

/-- R104, R171: the word of INIT and SEQ, and what they do to any context, valid or not: the default instance is written
and the response is OK with no data; nothing else changes. -/
def Obligations.InitAndSeqConstructDefaultInstance : Prop :=
  ∀ (s : State) (k : CtxNum) (sd : Pattern),
    (encode (.init k sd) = [BitVec.ofNat 64 (0x01 * 2 ^ 56 + k.toNat * 2 ^ 48 + sd.toNat)] ∧
      encode (.seq k sd) = encode (.init k sd)) ∧
    (k.toNat < s.nctx →
      let t : State := { s with
        ctxs := s.ctxs.set k.toNat ⟨true, ⟨seedword sd, 0x159A55E5, 0x049E06E9, 0x350B, 0x36A6E006⟩⟩
        rsps := s.rsps ++ [0x0000000000000000] }
      exec (.init k sd) s = .next t ∧ exec (.seq k sd) s = .next t)

/-- R105, R172: the words of INITP and SEQP, and what they do to any context, valid or not: with `a > c` all 64 bits of
every parameter are stored and the response is OK with no data; with `a <= c` nothing is written and the response is
`InvalidParameter`. -/
def Obligations.InitpAndSeqpConstructSuppliedInstance : Prop :=
  ∀ (s : State) (k : CtxNum) (sd : Pattern) (a c x1 x2 : Word),
    (encode (.initp k sd a c x1 x2) =
        [BitVec.ofNat 64 (0x02 * 2 ^ 56 + k.toNat * 2 ^ 48 + sd.toNat), a, c, x1, x2] ∧
      encode (.seqp k sd a c x1 x2) = encode (.initp k sd a c x1 x2)) ∧
    (k.toNat < s.nctx →
      let t : State :=
        if c.toNat < a.toNat then { s with
          ctxs := s.ctxs.set k.toNat ⟨true, ⟨seedword sd, x1, x2, c, a⟩⟩
          rsps := s.rsps ++ [0x0000000000000000] }
        else { s with rsps := s.rsps ++ [0x0100000000000000] }
      exec (.initp k sd a c x1 x2) s = .next t ∧ exec (.seqp k sd a c x1 x2) s = .next t)

/-- R106, R157: `a <= c` is `InvalidParameter` in INITP, SEQP and GENP, in GENP whatever the length; nothing is written,
so a context keeps its instance at the same place of its stream, or stays invalid. -/
def Obligations.BadParametersAreInvalidParameter : Prop :=
  ∀ (s : State) (k : CtxNum) (sd len : Pattern) (a c x1 x2 : Word), a.toNat ≤ c.toNat →
    let t : State := { s with rsps := s.rsps ++ [0x0100000000000000] }
    (k.toNat < s.nctx →
      exec (.initp k sd a c x1 x2) s = .next t ∧ exec (.seqp k sd a c x1 x2) s = .next t) ∧
    exec (.genp len sd a c x1 x2) s = .next t

/-- R129, R173: the word of STEP and NEXT, and what they do: a valid context advances by one step and the response is
its sample; an invalid one raises `NotInitialised` and nothing is written. -/
def Obligations.StepAndNextAdvanceTheInstance : Prop :=
  ∀ (s : State) (k : CtxNum) (v : Bool) (r : Regs),
    (encode (.step k) = [BitVec.ofNat 64 (0x03 * 2 ^ 56 + k.toNat * 2 ^ 48)] ∧
      encode (.next k) = encode (.step k)) ∧
    (s.ctxs[k.toNat]? = some ⟨v, r⟩ →
      let t := (r.a.toNat * r.x.toNat + r.c.toNat) % 2 ^ 64
      let z' : Word := BitVec.ofNat 64 (t % 2 ^ 32)
      let c' : Word := BitVec.ofNat 64 (t / 2 ^ 32)
      let u : State :=
        if v = true then { s with
          ctxs := s.ctxs.set k.toNat ⟨true, ⟨r.y, r.z, z', c', r.a⟩⟩
          rsps := s.rsps ++ [0x0000000000000001, f64bits z'] }
        else { s with rsps := s.rsps ++ [0x0300000000000000] }
      exec (.step k) s = .next u ∧ exec (.next k) s = .next u)

/-- R153: the words of GEN, and what it does: the response carries the first `len` samples of the default stream; a
negative length is `InvalidArgument`; nothing else changes. -/
def Obligations.GenReturnsTheFirstSamples : Prop :=
  ∀ (s : State) (len sd : Pattern),
    encode (.gen len sd) = [BitVec.ofNat 64 (0x04 * 2 ^ 56 + sd.toNat), BitVec.ofNat 64 len.toNat] ∧
    exec (.gen len sd) s = .next { s with
      rsps := s.rsps ++
        if 2 ^ 31 ≤ len.toNat then [0x0200000000000000]
        else BitVec.ofNat 64 len.toNat ::
          (List.range len.toNat).map (streamOut ⟨seedword sd, 0x159A55E5, 0x049E06E9, 0x350B, 0x36A6E006⟩) }

/-- R154: the words of GENP, and what it does: with `a > c` and a length that is not negative the response carries the
first `len` samples of the stream of its operands; `a <= c` is `InvalidParameter`, checked first; a negative length is
`InvalidArgument`; nothing else changes. -/
def Obligations.GenpReturnsTheFirstSamples : Prop :=
  ∀ (s : State) (len sd : Pattern) (a c x1 x2 : Word),
    encode (.genp len sd a c x1 x2) =
      [BitVec.ofNat 64 (0x05 * 2 ^ 56 + sd.toNat), BitVec.ofNat 64 len.toNat, a, c, x1, x2] ∧
    exec (.genp len sd a c x1 x2) s = .next { s with
      rsps := s.rsps ++
        if a.toNat ≤ c.toNat then [0x0100000000000000]
        else if 2 ^ 31 ≤ len.toNat then [0x0200000000000000]
        else BitVec.ofNat 64 len.toNat :: (List.range len.toNat).map (streamOut ⟨seedword sd, x1, x2, c, a⟩) }

/-- R156: a negative length is `InvalidArgument`; length 0 is an `OK` with no data. -/
def Obligations.BulkLengthIsChecked : Prop :=
  ∀ (s : State) (len sd : Pattern) (a c x1 x2 : Word), c.toNat < a.toNat →
    (len.toInt < 0 →
      exec (.gen len sd) s = .next { s with rsps := s.rsps ++ [0x0200000000000000] } ∧
      exec (.genp len sd a c x1 x2) s = .next { s with rsps := s.rsps ++ [0x0200000000000000] }) ∧
    (len = 0 →
      exec (.gen len sd) s = .next { s with rsps := s.rsps ++ [0x0000000000000000] } ∧
      exec (.genp len sd a c x1 x2) s = .next { s with rsps := s.rsps ++ [0x0000000000000000] })

/-- Rests on R79 (c) and on the model's own choice of log 7, that a meaning answers as the decoder does: a context
number that names no context is `IllegalCommand` in each of the six commands that name one. -/
def Obligations.MeaningOfAbsentContextIsIllegalCommand : Prop :=
  ∀ (s : State) (i : Instr) (k : CtxNum), i.context = some k → s.nctx ≤ k.toNat →
    exec i s = .next { s with rsps := s.rsps ++ [0x0400000000000000] }

/-- R185's formula with the digits the spec marks as its own computation: the known vector, in any context of any
state. -/
def Obligations.KnownFirstSampleOfSeedOne : Prop :=
  ∀ (s : State) (k : CtxNum), k.toNat < s.nctx →
    runCmds [.init k 1, .step k] s = .next { s with
      ctxs := s.ctxs.set k.toNat ⟨true, ⟨0x159A55E5, 0x049E06E9, 0x36A71511, 0, 0x36A6E006⟩⟩
      rsps := s.rsps ++ [0x0000000000000000, 0x0000000000000001, 0x3FCB538A88800000] }

/-- An inference the spec marks as its own (R181): seed 0 is seed 1 in every command that takes a seed, and no other
two seeds are identified. -/
def Obligations.ZeroSeedIsSeedOneAndNoOtherTwoAgree : Prop :=
  (∀ (s : State) (k : CtxNum) (len : Pattern) (a c x1 x2 : Word),
    exec (.init k 0) s = exec (.init k 1) s ∧
    exec (.seq k 0) s = exec (.seq k 1) s ∧
    exec (.initp k 0 a c x1 x2) s = exec (.initp k 1 a c x1 x2) s ∧
    exec (.seqp k 0 a c x1 x2) s = exec (.seqp k 1 a c x1 x2) s ∧
    exec (.gen len 0) s = exec (.gen len 1) s ∧
    exec (.genp len 0 a c x1 x2) s = exec (.genp len 1 a c x1 x2) s) ∧
  (∀ r q : Pattern, r ≠ q → r ≠ 0 → q ≠ 0 → seedword r ≠ seedword q)

/-- An inference the spec marks as its own (R192): the words of INITP and GENP with the default values leave the same
registers and give the same response as those of INIT and GEN, whatever words follow them in the stream. -/
def Obligations.DefaultParametersGiveTheDefaultCommands : Prop :=
  ∀ (s : State) (ts : List Turn) (k : CtxNum) (sd len : Pattern) (rest : List Word), s.EngineMoves ts →
    k.toNat < s.nctx →
    step { s with cmds := encode (.initp k sd 916905990 13579 362436069 77465321) ++ rest } =
      step { s with cmds := encode (.init k sd) ++ rest } ∧
    step { s with cmds := encode (.genp len sd 916905990 13579 362436069 77465321) ++ rest } =
      step { s with cmds := encode (.gen len sd) ++ rest }

/-- An inference the spec marks as its own (R63): an initialisation is idempotent on the registers; a bulk command
leaves them and answers the same each time. -/
def Obligations.InitialisationIsIdempotentAndBulkRepeatable : Prop :=
  (∀ (s : State) (i : Instr) (k : CtxNum), i.context = some k → pulls k i = false →
    ∃ t u, exec i s = .next t ∧ exec i t = .next u ∧ u.ctxs = t.ctxs) ∧
  (∀ (s : State) (i : Instr), i.context = none →
    ∃ t u ans, exec i s = .next t ∧ exec i t = .next u ∧ t.ctxs = s.ctxs ∧ u.ctxs = s.ctxs ∧
      t.rsps = s.rsps ++ ans ∧ u.rsps = t.rsps ++ ans)

/-! ## Frames, responses and errors of every command -/

/-- The write half of R28, R29 and R155, with R57: what a command leaves unchanged: every other context (all of them
for GEN and GENP), the number of contexts, the words of the command stream, the responses already given, the schedule;
STEP and NEXT leave `A` and `V`. -/
def Obligations.CommandsChangeOnlyTheirContextAndRespond : Prop :=
  ∀ (i : Instr) (s t : State), exec i s = .next t →
    t.nctx = s.nctx ∧ t.cmds = s.cmds ∧ t.schedule = s.schedule ∧
    (∃ h data, t.rsps = s.rsps ++ h :: data) ∧
    (∀ j : Nat, (∀ k, i.context = some k → j ≠ k.toNat) → t.ctxs[j]? = s.ctxs[j]?) ∧
    (∀ (k : CtxNum) (c d : Context), pulls k i = true →
      s.ctxs[k.toNat]? = some c → t.ctxs[k.toNat]? = some d → d.v = c.v ∧ d.regs.a = c.regs.a)

/-- R84: every command completes and appends exactly one whole response: its header is `(status << 56) | COUNT` with
`COUNT` the number of data words, at most `2^31 - 1`; the counts of the OK responses are those of R85. -/
def Obligations.EveryCommandAppendsOneWholeResponse : Prop :=
  ∀ (i : Instr) (s : State), ∃ t h data,
    exec i s = .next t ∧ t.rsps = s.rsps ++ h :: data ∧ IsResponse h data ∧
    h.toNat = statusOf h * 2 ^ 56 + data.length ∧ data.length ≤ 2 ^ 31 - 1 ∧
    (statusOf h = 0 → match i with
      | .init _ _ => data.length = 0
      | .initp _ _ _ _ _ _ => data.length = 0
      | .step _ => data.length = 1
      | .gen len _ => data.length = len.toNat
      | .genp len _ _ _ _ _ => data.length = len.toNat
      | .seq _ _ => data.length = 0
      | .seqp _ _ _ _ _ _ => data.length = 0
      | .next _ => data.length = 1)

/-- R208: a command that responds with a non-zero status, legal or not, has written no register and has sent no data
word: its response is its only effect. -/
def Obligations.ErrorResponsesWriteNoRegister : Prop :=
  (∀ (i : Instr) (s t : State) (h : Word) (data : List Word),
    exec i s = .next t → t.rsps = s.rsps ++ h :: data → statusOf h ≠ 0 →
    data = [] ∧ t = { s with rsps := s.rsps ++ [h] }) ∧
  (∀ (s t : State) (h : Word) (data : List Word),
    s.engineTurn = .next t → t.rsps = s.rsps ++ h :: data → statusOf h ≠ 0 → data = [] ∧ t.ctxs = s.ctxs)

/-- R201, R202, R203: which commands can raise which error, and exactly when; a well-formed command never answers
`IllegalCommand`. -/
def Obligations.ErrorsAreRaisedExactlyByTheirCauses : Prop :=
  ∀ (i : Instr) (s t : State) (h : Word) (data : List Word),
    exec i s = .next t → t.rsps = s.rsps ++ h :: data → i.wellFormed s.nctx = true →
    (statusOf h = 1 ↔ match i with
      | .initp _ _ a c _ _ => a.toNat ≤ c.toNat
      | .seqp _ _ a c _ _ => a.toNat ≤ c.toNat
      | .genp _ _ a c _ _ => a.toNat ≤ c.toNat
      | .init _ _ => False
      | .step _ => False
      | .gen _ _ => False
      | .seq _ _ => False
      | .next _ => False) ∧
    (statusOf h = 2 ↔ match i with
      | .gen len _ => len.toInt < 0
      | .genp len _ a c _ _ => len.toInt < 0 ∧ c.toNat < a.toNat
      | .init _ _ => False
      | .initp _ _ _ _ _ _ => False
      | .step _ => False
      | .seq _ _ => False
      | .seqp _ _ _ _ _ _ => False
      | .next _ => False) ∧
    (statusOf h = 3 ↔ ∃ k r, pulls k i = true ∧ s.ctxs[k.toNat]? = some ⟨false, r⟩) ∧
    statusOf h ≠ 4

/-- An inference the spec marks as its own (R183): every data word of every OK response is `f64bits(z)` with `0 <= z <
2^32`, below 1.0. -/
def Obligations.DataWordsLieInTheUnitInterval : Prop :=
  ∀ (i : Instr) (s t : State) (h : Word) (data : List Word),
    exec i s = .next t → t.rsps = s.rsps ++ h :: data → statusOf h = 0 →
    ∀ w ∈ data, (∃ z : Word, z.toNat < 2 ^ 32 ∧ w = f64bits z) ∧ w.toNat < 0x3FF0000000000000

/-! ## Encoding -/

/-- Rests on R82 and R88: decoding the words of a well-formed command gives it back, a pseudo-command as its core, and
leaves the words after it. -/
def Obligations.DecodeOfEncodeIsTheCommand : Prop :=
  ∀ (nctx : Nat) (i : Instr) (rest : List Word), i.wellFormed nctx = true →
    decode nctx (encode i ++ rest) = .command i.core rest

/-- Rests on R78, R79, R82 and R88: one encoding per command: what the decoder reads as a command is exactly its
encoding, the command is well formed, and it is never a pseudo-command. -/
def Obligations.EncodeOfDecodeIsTheWords : Prop :=
  ∀ (nctx : Nat) (ws : List Word) (i : Instr) (rest : List Word), decode nctx ws = .command i rest →
    ws = encode i ++ rest ∧ i.wellFormed nctx = true ∧ i.core = i

/-- The worked encodings of R89 (the spec marks them as its own derivation): the words decode to the commands they stand
for, the commands encode to them, and the response headers are the words given. -/
def Obligations.WorkedEncodingsDecode : Prop :=
  (∀ p ∈ ([(.init 0 1, [0x0100000000000001]), (.init 1 42, [0x010100000000002A]),
      (.init 0 0xFFFFFFFF, [0x01000000FFFFFFFF]),
      (.initp 2 7 916905990 13579 362436069 77465321,
        [0x0202000000000007, 0x36A6E006, 0x350B, 0x159A55E5, 0x049E06E9]),
      (.step 0, [0x0300000000000000]), (.step 1, [0x0301000000000000]),
      (.gen 3 42, [0x040000000000002A, 0x3]), (.gen 0xFFFFFFFF 1, [0x0400000000000001, 0xFFFFFFFF]),
      (.genp 2 1 2 1 5 6, [0x0500000000000001, 0x2, 0x2, 0x1, 0x5, 0x6])] : List (Instr × List Word)),
    decode 4 p.2 = .command p.1 [] ∧ encode p.1 = p.2) ∧
  responseHeader statusOk 0 = 0x0000000000000000 ∧ responseHeader statusOk 1 = 0x0000000000000001 ∧
  responseHeader ErrorKind.invalidParameter.code 0 = 0x0100000000000000 ∧
  responseHeader ErrorKind.invalidArgument.code 0 = 0x0200000000000000 ∧
  responseHeader ErrorKind.notInitialised.code 0 = 0x0300000000000000 ∧
  responseHeader ErrorKind.illegalCommand.code 0 = 0x0400000000000000

/-! ## The step of the machine -/

/-- Rests on R55 and R82 and on the model's schedule (log 3): when the schedule gives the engine the turn, the step is
the engine's turn with that turn taken; when the words at the head decode to a command, it is that command's meaning
with those words removed. -/
def Obligations.StepRunsTheDecodedCommand : Prop :=
  ∀ (s : State) (ts : List Turn), s.EngineMoves ts →
    step s = { s with schedule := ts }.engineTurn ∧
    ∀ (i : Instr) (rest : List Word), decode s.nctx s.cmds = .command i rest →
      step s = exec i { s with cmds := rest, schedule := ts }

/-- R79: the six illegal conditions, the words each consumes, and the one response to all of them. -/
def Obligations.IllegalEncodingsConsumeAndRespond : Prop :=
  ∀ (s : State) (h : Word) (ws : List Word), s.cmds = h :: ws →
    let opc := h.toNat / 2 ^ 56
    let ctx := h.toNat / 2 ^ 48 % 2 ^ 8
    let rsv := h.toNat / 2 ^ 32 % 2 ^ 16
    let imm := h.toNat % 2 ^ 32
    let len := if opc = 2 then 5 else if opc = 4 then 2 else if opc = 5 then 6 else 1
    len ≤ s.cmds.length →
    (opc = 0 ∨ 6 ≤ opc) ∨
    ((1 ≤ opc ∧ opc ≤ 5) ∧
      (rsv ≠ 0 ∨ (opc ≤ 3 ∧ s.nctx ≤ ctx) ∨ (4 ≤ opc ∧ ctx ≠ 0) ∨ (opc = 3 ∧ imm ≠ 0) ∨
        (4 ≤ opc ∧ (s.cmds.getD 1 0).toNat / 2 ^ 32 ≠ 0))) →
    s.engineTurn = .next { s with cmds := s.cmds.drop len, rsps := s.rsps ++ [0x0400000000000000] }

/-- Rests on R81 and R82 and on the model's choice that a turn whose move is not enabled passes (log 5): with an empty
stream, or a command whose last word is missing, the engine does nothing. -/
def Obligations.IncompleteCommandChangesNothing : Prop :=
  ∀ (s : State) (ts : List Turn), s.EngineMoves ts →
    (∀ h ws, s.cmds = h :: ws →
      s.cmds.length < (if h.toNat / 2 ^ 56 = 2 then 5 else if h.toNat / 2 ^ 56 = 4 then 2
        else if h.toNat / 2 ^ 56 = 5 then 6 else 1)) →
    step s = .next { s with schedule := ts }

/-- Rests on R56, R77, R83 and R243 and on the schedule of log 3: with a whole command at the head, legal or not, the
engine's step completes, consumes exactly its words and appends exactly one response. -/
def Obligations.WholeCommandIsConsumedAndAnsweredOnce : Prop :=
  ∀ (s : State) (ts : List Turn) (h : Word) (ws : List Word), s.EngineMoves ts → s.cmds = h :: ws →
    let opc := h.toNat / 2 ^ 56
    let len := if opc = 2 then 5 else if opc = 4 then 2 else if opc = 5 then 6 else 1
    len ≤ s.cmds.length →
    ∃ t g data, step s = .next t ∧ t.cmds = s.cmds.drop len ∧ t.schedule = ts ∧ t.nctx = s.nctx ∧
      t.rsps = s.rsps ++ g :: data ∧ IsResponse g data

/-- Rests on R200, R206, R214, R217 and R243 and on logs 3 and 5: no state stops the machine: every step answers a next
state. -/
def Obligations.EveryStepAnswersANextState : Prop :=
  ∀ s : State, ∃ t, step s = .next t

/-- Rests on R51, R52 and R55 and on the schedule of log 3: the host's appending and removing change the one stream and
nothing else. The third clause is the model's choice (log 5): R58 gives no removal from an empty response stream, and
the model lets such a turn pass and change nothing. -/
def Obligations.HostMovesChangeOneStream : Prop :=
  ∀ (s : State) (ts : List Turn),
    (∀ ws, s.schedule = .host (.append ws) :: ts →
      step s = .next { s with cmds := s.cmds ++ ws, schedule := ts }) ∧
    (∀ w ws, s.schedule = .host .remove :: ts → s.rsps = w :: ws →
      step s = .next { s with rsps := ws, schedule := ts }) ∧
    (s.schedule = .host .remove :: ts → s.rsps = [] → step s = .next { s with schedule := ts })

/-- Rests on R230, R231, R232 and R36 and on the schedule of log 3: the reset event empties both streams, clears every
valid flag and constructs nothing; so does the state the machine starts from. The register words it leaves are the
model's choice (log 1) and no part of this. -/
def Obligations.ResetEndsEveryInstance : Prop :=
  (∀ (s : State) (ts : List Turn), s.schedule = .host .reset :: ts →
    ∃ t, step s = .next t ∧ t.nctx = s.nctx ∧ t.cmds = [] ∧ t.rsps = [] ∧ t.schedule = ts ∧
      ∀ c ∈ t.ctxs, c.v = false) ∧
  (∀ n, (State.resetWith n).nctx = n ∧ (State.resetWith n).cmds = [] ∧ (State.resetWith n).rsps = [] ∧
    ∀ c ∈ (State.resetWith n).ctxs, c.v = false) ∧
  (∃ n, 1 ≤ n ∧ n ≤ 256 ∧ State.reset = State.resetWith n)

/-- Rests on R25 and R26 and on the schedule of log 3: as long as no reset happens a valid context stays valid, and its
multiplier changes only when a successful initialisation of that context is executed. -/
def Obligations.ValidFlagAndMultiplierPersist : Prop :=
  ∀ (s t : State) (k : CtxNum) (c : Context), step s = .next t → s.ctxs[k.toNat]? = some c → c.v = true →
    (∀ ts, s.schedule ≠ .host .reset :: ts) →
    ∃ d, t.ctxs[k.toNat]? = some d ∧ d.v = true ∧
      (d.regs.a ≠ c.regs.a →
        ∃ ts i rest, s.EngineMoves ts ∧ decode s.nctx s.cmds = .command i rest ∧ initialises k i = true)

/-- The model's own convention (log 6): a command placed by `withFetchWord` is the one the very next step runs, on the
state it was placed into. -/
def Obligations.PlacedCommandRunsNext : Prop :=
  ∀ (s : State) (nbits w : Nat) (i : Instr), s.nctx = Config.nctx → decodeTableWord nbits w = some i →
    step (s.withFetchWord nbits w) = exec i s

/-! ## The invariant -/

/-- Every step, of either agent, keeps the invariant: a legal register file with every living instance lawful. -/
def Obligations.StepKeepsTheInvariant : Prop :=
  ∀ s t : State, s.Inv → step s = .next t → t.Inv

/-- The invariant holds after reset, for every legal number of contexts and for the one of `State.reset`. -/
def Obligations.ResetMeetsTheInvariant : Prop :=
  (∀ n, 1 ≤ n → n ≤ 256 → (State.resetWith n).Inv) ∧ State.reset.Inv

/-! ## Whole-machine properties -/

/-- An inference the spec marks as its own (R59, R190): the registers and the responses of a context depend on the
commands that name it alone: dropping every other command changes neither. -/
def Obligations.ContextsAreIndependent : Prop :=
  ∀ (k : CtxNum) (is : List Instr) (s : State),
    let own := is.filter fun i => decide (i.context = some k)
    ∃ t u, runCmds is s = .next t ∧ runCmds own s = .next u ∧
      t.ctxs[k.toNat]? = u.ctxs[k.toNat]? ∧
      (answers is s).filter (fun p => decide (p.1.context = some k)) = answers own s

/-- An inference the spec marks as its own (R184): stepping, lazy and bulk access give one stream, with supplied and
with default parameters. -/
def Obligations.ThreeAccessPatternsGiveOneStream : Prop :=
  ∀ (s : State) (k : CtxNum) (sd len : Pattern), k.toNat < s.nctx → len.toNat < 2 ^ 31 →
    (∀ a c x1 x2 : Word, c.toNat < a.toNat →
      let data := (List.range len.toNat).map (streamOut ⟨seedword sd, x1, x2, c, a⟩)
      let one := s.rsps ++ 0 :: data.flatMap fun w => [1, w]
      (∃ t, runCmds (.initp k sd a c x1 x2 :: List.replicate len.toNat (.step k)) s = .next t ∧ t.rsps = one) ∧
      (∃ t, runCmds (.seqp k sd a c x1 x2 :: List.replicate len.toNat (.next k)) s = .next t ∧ t.rsps = one) ∧
      (∃ t, exec (.genp len sd a c x1 x2) s = .next t ∧ t.rsps = s.rsps ++ BitVec.ofNat 64 len.toNat :: data)) ∧
    (let data := (List.range len.toNat).map (streamOut ⟨seedword sd, 362436069, 77465321, 13579, 916905990⟩)
     let one := s.rsps ++ 0 :: data.flatMap fun w => [1, w]
     (∃ t, runCmds (.init k sd :: List.replicate len.toNat (.step k)) s = .next t ∧ t.rsps = one) ∧
     (∃ t, runCmds (.seq k sd :: List.replicate len.toNat (.next k)) s = .next t ∧ t.rsps = one) ∧
     (∃ t, exec (.gen len sd) s = .next t ∧ t.rsps = s.rsps ++ BitVec.ofNat 64 len.toNat :: data))

/-- An inference the spec marks as its own (R59 (c), R180): after an initialisation, whatever commands follow (none of
them initialising that context again), the `j`-th STEP or NEXT on the context returns the `j`-th word of the stream its
seed and parameters fix. -/
def Obligations.PulledSamplesAreTheStream : Prop :=
  ∀ (s : State) (k : CtxNum) (start : Instr) (r : Regs) (is : List Instr), k.toNat < s.nctx →
    ((∃ sd, (start = .init k sd ∨ start = .seq k sd) ∧
        r = ⟨seedword sd, 362436069, 77465321, 13579, 916905990⟩) ∨
      (∃ sd a c x1 x2, (start = .initp k sd a c x1 x2 ∨ start = .seqp k sd a c x1 x2) ∧
        c.toNat < a.toNat ∧ r = ⟨seedword sd, x1, x2, c, a⟩)) →
    (∀ i ∈ is, initialises k i = false) →
    ∃ t, exec start s = .next t ∧
      ((answers is t).filter fun p => pulls k p.1).map (fun p => p.2) =
        (List.range (is.countP (pulls k))).map fun j => [1, streamOut r j]

/-- An inference the spec marks as its own (R191): a run with its failing commands removed leaves the same registers
and gets the same successful responses. -/
def Obligations.FailingCommandsCanBeRemoved : Prop :=
  ∀ (is : List Instr) (s : State), ∃ t u,
    runCmds is s = .next t ∧ runCmds (succeeding is s) s = .next u ∧ t.ctxs = u.ctxs ∧
    (answers is s).filter (fun p => answeredOk p.2) = answers (succeeding is s) s

/-- Rests on R57 and R82 and on the empty schedule of log 3: the machine on the encoding of well-formed commands runs
them in order, one a step, and nothing else. -/
def Obligations.EncodedProgramRunsInOrder : Prop :=
  ∀ (is : List Instr) (s : State) (rest : List Word),
    (∀ i ∈ is, i.wellFormed s.nctx = true) → s.schedule = [] → s.cmds = is.flatMap encode ++ rest →
    Host.Core.run core is.length s = runCmds (is.map Instr.core) { s with cmds := rest }

/-- Rests on R235, R81 and R243 and on logs 3 and 5: the engine comes to rest within as many steps as there are words:
it is idle, or waits for the rest of one command; and the stream is then empty, so that the run has ended (cleanly),
exactly when the words parse into whole commands. A run whose words stop inside a command comes to rest and does not
end. -/
def Obligations.RunsEndCleanlyExactlyWhenWordsParse : Prop :=
  ∀ s : State, s.schedule = [] →
    (∃ t, Host.Core.run core s.cmds.length s = .next t ∧
      (decode t.nctx t.cmds = .idle ∨ decode t.nctx t.cmds = .wait) ∧
      (t.cmds = [] ↔ ParsesWhole s.cmds))

/-- Rests on R36 and on the schedule of log 3: registers that reset leaves unspecified are never observable: two states
that differ only in the registers of invalid contexts stay so in every step, of either agent, and give the same
responses for ever. -/
def Obligations.UnspecifiedRegistersAreNeverObserved : Prop :=
  ∀ (s t : State) (n : Nat), s.SameSeen t →
    ∃ s' t', Host.Core.run core n s = .next s' ∧ Host.Core.run core n t = .next t' ∧ s'.SameSeen t'

/-! ## Invariants of the recurrence -/

/-- An inference the spec marks as its own (R27): a step narrows the words one after another; the multiplier is never
narrowed; the default words never widen. -/
def Obligations.StepsNarrowTheRegisters : Prop :=
  (∀ (r : Regs) (n : Nat),
    (advanceN n r).a = r.a ∧
    (1 ≤ n → (advanceN n r).z.toNat < 2 ^ 32 ∧ (advanceN n r).c.toNat < 2 ^ 32) ∧
    (2 ≤ n → (advanceN n r).y.toNat < 2 ^ 32) ∧
    (3 ≤ n → (advanceN n r).x.toNat < 2 ^ 32)) ∧
  (∀ (sd : Pattern) (n : Nat),
    let r := advanceN n ⟨seedword sd, 362436069, 77465321, 13579, 916905990⟩
    r.x.toNat < 2 ^ 32 ∧ r.y.toNat < 2 ^ 32 ∧ r.z.toNat < 2 ^ 32 ∧ r.c.toNat < 2 ^ 32 ∧ r.a.toNat < 2 ^ 32)

/-- An inference the spec marks as its own (R30): after step `n >= 3` the words are the last three outputs, and the
next one follows from the oldest of them. -/
def Obligations.WordsAreTheLastThreeOutputs : Prop :=
  ∀ (r : Regs) (n : Nat), 3 ≤ n →
    let o := fun j => (advanceN j r).z
    (∀ j, 1 ≤ j → streamOut r (j - 1) = f64bits (o j)) ∧
    (advanceN n r).y = o (n - 1) ∧ (advanceN n r).x = o (n - 2) ∧
    (o (n + 1)).toNat = (r.a.toNat * (o (n - 2)).toNat + (advanceN n r).c.toNat) % 2 ^ 32

/-- An inference the spec marks as its own (R187): in the canonical domain every step keeps the carry below the
multiplier, for the whole life of an instance; for a wide multiplier it is below after every step; it can fail only
with a wide initial word, and then it does. -/
def Obligations.CarryStaysBelowTheMultiplier : Prop :=
  (∀ (s : State) (k : CtxNum) (r : Regs), s.ctxs[k.toNat]? = some ⟨true, r⟩ → r.Canonical →
    ∃ t q, exec (.step k) s = .next t ∧ exec (.next k) s = .next t ∧
      t.ctxs[k.toNat]? = some ⟨true, q⟩ ∧ q.Canonical ∧ q.a = r.a) ∧
  (∀ (sd : Pattern) (a c x1 x2 : Word) (n : Nat), a.toNat < 2 ^ 32 → x1.toNat < 2 ^ 32 → x2.toNat < 2 ^ 32 →
    c.toNat < a.toNat → (advanceN n ⟨seedword sd, x1, x2, c, a⟩).Canonical) ∧
  (∀ r : Regs, 2 ^ 32 ≤ r.a.toNat → (stepFn r).1.c.toNat < r.a.toNat) ∧
  (advanceN 3 ⟨seedword 0xFFFFFFFF, 0x100000001, 0xFFFFFFFFFFFFFFFF, 0xFFFFFFFE, 0xFFFFFFFF⟩).c = 0xFFFFFFFF

/-- An inference the spec marks as its own (R188): on the canonical states of one multiplier the step is a permutation,
every stream is purely periodic, and the all-zero state is reached from itself alone; outside the canonical domain it
can be reached. -/
def Obligations.CanonicalStepIsAPermutation : Prop :=
  (∀ r q : Regs, r.Canonical → q.Canonical → r.a = q.a → (stepFn r).1 = (stepFn q).1 → r = q) ∧
  (∀ q : Regs, q.Canonical → ∃ r : Regs, r.Canonical ∧ r.a = q.a ∧ (stepFn r).1 = q) ∧
  (∀ r : Regs, r.Canonical → ∃ p, 1 ≤ p ∧ advanceN p r = r) ∧
  (∀ (r : Regs) (n : Nat), r.Canonical → (advanceN n r).AllZero → r.AllZero) ∧
  (∀ n, 1 ≤ n → (advanceN n ⟨seedword 2, 0, 0, 0, 0x8000000000000000⟩).AllZero) ∧
  (∀ j, streamOut ⟨seedword 2, 0, 0, 0, 0x8000000000000000⟩ j = 0)

/-- An inference the spec marks as its own (R189): the fixed points of the canonical states, for `A >= 2` and for `A =
1`, and the upper one by construction. -/
def Obligations.FixedPointsOfTheCanonicalStep : Prop :=
  (∀ r : Regs, r.Canonical → 2 ≤ r.a.toNat →
    let g := Nat.gcd (r.a.toNat - 1) (2 ^ 32 - 1)
    ((stepFn r).1 = r ↔ ∃ m, m ≤ g ∧ r.x.toNat = m * ((2 ^ 32 - 1) / g) ∧ r.y = r.x ∧ r.z = r.x ∧
      r.c.toNat = m * ((r.a.toNat - 1) / g))) ∧
  (∀ r : Regs, r.Canonical → r.a.toNat = 1 → ((stepFn r).1 = r ↔ r.y = r.x ∧ r.z = r.x ∧ r.c = 0)) ∧
  Nat.gcd (916905990 - 1) (2 ^ 32 - 1) = 1 ∧
  (∀ (a : Word) (j : Nat), 2 ≤ a.toNat → a.toNat < 2 ^ 32 →
    streamOut ⟨seedword 0xFFFFFFFF, 0xFFFFFFFF, 0xFFFFFFFF, a - 1, a⟩ j = 0x3FEFFFFFFFE00000)
end

