-- ==== Sys2Proof/Laws/Datapath.lean ====
section
/-! SUPPORT. The datapath on numbers: the sum, its two halves, and what a step leaves in each register. -/

namespace Sys2Proof.Machine

/-- `t` as a number (rules R122, R123). -/
theorem stepSum_toNat (r : Regs) : (stepSum r).toNat = (r.a.toNat * r.x.toNat + r.c.toNat) % 2 ^ 64 := by
  simp [stepSum, add64, mul64, BitVec.toNat_add, BitVec.toNat_mul]

/-- The carry half as a number (rule R124). -/
theorem carryWord_toNat (t : Word) : (carryWord t).toNat = t.toNat / 2 ^ 32 := by
  simp [carryWord, BitVec.toNat_ushiftRight, Nat.shiftRight_eq_div_pow]

/-- The low half as a number (rule R124). -/
theorem lowWord_toNat (t : Word) : (lowWord t).toNat = t.toNat % 2 ^ 32 := by
  simp only [lowWord, BitVec.toNat_and]
  exact Nat.and_two_pow_sub_one_eq_mod t.toNat 32

/-- Both halves are below `2^32`, whatever the sum (rule R132). -/
theorem carryWord_lt (t : Word) : (carryWord t).toNat < 2 ^ 32 := by
  rw [carryWord_toNat]; have := t.isLt; omega

theorem lowWord_lt (t : Word) : (lowWord t).toNat < 2 ^ 32 := by
  rw [lowWord_toNat]; omega

@[simp] theorem stepFn_x (r : Regs) : (stepFn r).1.x = r.y := rfl
@[simp] theorem stepFn_y (r : Regs) : (stepFn r).1.y = r.z := rfl
@[simp] theorem stepFn_z (r : Regs) : (stepFn r).1.z = lowWord (stepSum r) := rfl
@[simp] theorem stepFn_c (r : Regs) : (stepFn r).1.c = carryWord (stepSum r) := rfl
@[simp] theorem stepFn_a (r : Regs) : (stepFn r).1.a = r.a := rfl
@[simp] theorem stepFn_out (r : Regs) : (stepFn r).2 = f64bits (lowWord (stepSum r)) := rfl

@[simp] theorem genFn_length (n : Nat) (r : Regs) : (genFn n r).length = n := by
  induction n generalizing r with
  | zero => rfl
  | succ n ih => simp [genFn, ih]

/-- Every bulk sample is the conversion of a 32-bit integer (rules R124, R151). -/
theorem genFn_mem (n : Nat) (r : Regs) (w : Word) (h : w ∈ genFn n r) :
    ∃ z : Word, z.toNat < 2 ^ 32 ∧ w = f64bits z := by
  induction n generalizing r with
  | zero => simp [genFn] at h
  | succ n ih =>
    rcases List.mem_cons.mp h with rfl | h
    · exact ⟨lowWord (stepSum r), lowWord_lt _, rfl⟩
    · exact ih _ h

/-- The parameter check compares unsigned numbers (rule R102). -/
theorem paramOk_iff (a c : Word) : paramOk a c = true ↔ c.toNat < a.toNat := by
  simp [paramOk, BitVec.ult]

/-- The default parameters pass the check (rule R103). -/
theorem defaults_paramOk : paramOk Config.defaults.a Config.defaults.c = true := by decide

@[simp] theorem freshRegs_x (sd : Pattern) (p : Params) : (freshRegs sd p).x = seedword sd := rfl
@[simp] theorem freshRegs_y (sd : Pattern) (p : Params) : (freshRegs sd p).y = p.x1 := rfl
@[simp] theorem freshRegs_z (sd : Pattern) (p : Params) : (freshRegs sd p).z = p.x2 := rfl
@[simp] theorem freshRegs_c (sd : Pattern) (p : Params) : (freshRegs sd p).c = p.c := rfl
@[simp] theorem freshRegs_a (sd : Pattern) (p : Params) : (freshRegs sd p).a = p.a := rfl

end Sys2Proof.Machine
end

