-- ==== Sys2Proof/Laws/Encoding.lean ====
section
/-! SUPPORT. The fields of an encoded header and of an encoded `LEN` word (30_encoding.md rules R71, R74), and the
opcodes' bytes. -/

namespace Sys2Proof

/-- A header as a number. -/
theorem header_toNat (o : Opcode) (k : CtxNum) (imm : Pattern) :
    (header o k imm).toNat = o.toByte.toNat * 2 ^ 56 + k.toNat * 2 ^ 48 + imm.toNat := by
  have hk := k.isLt
  have hi := imm.isLt
  unfold header
  rw [BitVec.toNat_append, BitVec.toNat_append, BitVec.toNat_append]
  simp only [BitVec.ofNat_eq_ofNat, BitVec.toNat_ofNat, Nat.zero_mod, Nat.or_zero]
  rw [Nat.shiftLeft_eq, Nat.shiftLeft_eq, Nat.shiftLeft_eq]
  have h1 : o.toByte.toNat * 2 ^ 8 ||| k.toNat = o.toByte.toNat * 2 ^ 8 + k.toNat := by
    rw [Nat.mul_comm, Nat.two_pow_add_eq_or_of_lt hk]
  rw [h1]
  have h2 : (o.toByte.toNat * 2 ^ 8 + k.toNat) * 2 ^ 16 * 2 ^ 32 ||| imm.toNat
      = (o.toByte.toNat * 2 ^ 8 + k.toNat) * 2 ^ 16 * 2 ^ 32 + imm.toNat := by
    rw [Nat.mul_comm _ (2 ^ 32), Nat.two_pow_add_eq_or_of_lt hi]
  rw [h2]
  omega

theorem opcField_toNat (h : Word) : (opcField h).toNat = h.toNat / 2 ^ 56 := by
  have := h.isLt
  simp only [opcField, BitVec.extractLsb'_toNat, Nat.shiftRight_eq_div_pow]
  omega

theorem ctxField_toNat (h : Word) : (ctxField h).toNat = h.toNat / 2 ^ 48 % 2 ^ 8 := by
  simp [ctxField, BitVec.extractLsb'_toNat, Nat.shiftRight_eq_div_pow]

theorem rsvField_toNat (h : Word) : (rsvField h).toNat = h.toNat / 2 ^ 32 % 2 ^ 16 := by
  simp [rsvField, BitVec.extractLsb'_toNat, Nat.shiftRight_eq_div_pow]

theorem immField_toNat (h : Word) : (immField h).toNat = h.toNat % 2 ^ 32 := by
  simp [immField, BitVec.extractLsb'_toNat]

theorem lenField_toNat (w : Word) : (lenField w).toNat = w.toNat % 2 ^ 32 := by
  simp [lenField, BitVec.extractLsb'_toNat]

theorem lenRsvField_toNat (w : Word) : (lenRsvField w).toNat = w.toNat / 2 ^ 32 := by
  have := w.isLt
  simp only [lenRsvField, BitVec.extractLsb'_toNat, Nat.shiftRight_eq_div_pow]
  omega

@[simp] theorem opcField_header (o : Opcode) (k : CtxNum) (imm : Pattern) :
    opcField (header o k imm) = o.toByte := by
  apply BitVec.eq_of_toNat_eq
  rw [opcField_toNat, header_toNat]
  have := k.isLt; have := imm.isLt; omega

@[simp] theorem ctxField_header (o : Opcode) (k : CtxNum) (imm : Pattern) : ctxField (header o k imm) = k := by
  apply BitVec.eq_of_toNat_eq
  rw [ctxField_toNat, header_toNat]
  have := k.isLt; have := imm.isLt; omega

@[simp] theorem rsvField_header (o : Opcode) (k : CtxNum) (imm : Pattern) : rsvField (header o k imm) = 0 := by
  apply BitVec.eq_of_toNat_eq
  rw [rsvField_toNat, header_toNat]
  have := k.isLt; have := imm.isLt; simp; omega

@[simp] theorem immField_header (o : Opcode) (k : CtxNum) (imm : Pattern) : immField (header o k imm) = imm := by
  apply BitVec.eq_of_toNat_eq
  rw [immField_toNat, header_toNat]
  have := k.isLt; have := imm.isLt; omega

theorem lenWord_toNat (len : Pattern) : (lenWord len).toNat = len.toNat := by
  have := len.isLt
  simp only [lenWord, BitVec.toNat_setWidth]
  omega

@[simp] theorem lenField_lenWord (len : Pattern) : lenField (lenWord len) = len := by
  apply BitVec.eq_of_toNat_eq
  rw [lenField_toNat, lenWord_toNat]
  have := len.isLt; omega

@[simp] theorem lenRsvField_lenWord (len : Pattern) : lenRsvField (lenWord len) = 0 := by
  apply BitVec.eq_of_toNat_eq
  rw [lenRsvField_toNat, lenWord_toNat]
  have := len.isLt; simp; omega

@[simp] theorem Opcode.ofByte_toByte (o : Opcode) : Opcode.ofByte o.toByte = some o := by cases o <;> rfl

/-- The other direction: a byte that stands for an opcode is that opcode's byte (rule R76). -/
theorem Opcode.toByte_of_ofByte {b : BitVec 8} {o : Opcode} (h : Opcode.ofByte b = some o) : o.toByte = b := by
  unfold Opcode.ofByte at h
  split at h
  · cases h; simp_all [Opcode.toByte]
  split at h
  · cases h; simp_all [Opcode.toByte]
  split at h
  · cases h; simp_all [Opcode.toByte]
  split at h
  · cases h; simp_all [Opcode.toByte]
  split at h
  · cases h; simp_all [Opcode.toByte]
  · cases h

@[simp] theorem cmdLength_toByte (o : Opcode) : cmdLength o.toByte = o.words := by simp [cmdLength]

theorem cmdLength_pos (b : BitVec 8) : 1 ≤ cmdLength b := by
  unfold cmdLength
  split
  · rename_i o _; cases o <;> decide
  · decide

theorem cmdLength_le (b : BitVec 8) : cmdLength b ≤ 6 := by
  unfold cmdLength
  split
  · rename_i o _; cases o <;> decide
  · decide

/-- A header is determined by its four fields (rule R71): with `RSV` zero it is the encoder's. -/
theorem header_of_fields (o : Opcode) (h : Word) (ho : opcField h = o.toByte) (hr : rsvField h = 0) :
    header o (ctxField h) (immField h) = h := by
  apply BitVec.eq_of_toNat_eq
  have h1 := congrArg BitVec.toNat ho
  have h2 := congrArg BitVec.toNat hr
  rw [opcField_toNat] at h1
  rw [rsvField_toNat] at h2
  rw [header_toNat, ctxField_toNat, immField_toNat]
  have := h.isLt
  simp at h2
  omega

/-- A `LEN` word with `LENRSV` zero is the encoder's (rule R74). -/
theorem lenWord_of_field (w : Word) (h : lenRsvField w = 0) : lenWord (lenField w) = w := by
  apply BitVec.eq_of_toNat_eq
  have h1 := congrArg BitVec.toNat h
  rw [lenRsvField_toNat] at h1
  rw [lenWord_toNat, lenField_toNat]
  simp at h1
  omega

end Sys2Proof
end

