-- ==== Sys2Proof/Laws/State.lean ====
section
/-! SUPPORT. What each update of the state does to each field, so that no proof unfolds an update. -/

namespace Sys2Proof.Machine

@[simp] theorem State.setCtx_ctxs (s : State) (k : CtxNum) (c : Context) :
    (s.setCtx k c).ctxs = s.ctxs.set k.toNat c := rfl
@[simp] theorem State.setCtx_cmds (s : State) (k : CtxNum) (c : Context) : (s.setCtx k c).cmds = s.cmds := rfl
@[simp] theorem State.setCtx_rsps (s : State) (k : CtxNum) (c : Context) : (s.setCtx k c).rsps = s.rsps := rfl
@[simp] theorem State.setCtx_schedule (s : State) (k : CtxNum) (c : Context) :
    (s.setCtx k c).schedule = s.schedule := rfl
@[simp] theorem State.setCtx_nctx (s : State) (k : CtxNum) (c : Context) : (s.setCtx k c).nctx = s.nctx := by
  simp [State.nctx]

@[simp] theorem State.respond_ctxs (s : State) (st : BitVec 8) (data : List Word) :
    (s.respond st data).ctxs = s.ctxs := rfl
@[simp] theorem State.respond_cmds (s : State) (st : BitVec 8) (data : List Word) :
    (s.respond st data).cmds = s.cmds := rfl
@[simp] theorem State.respond_rsps (s : State) (st : BitVec 8) (data : List Word) :
    (s.respond st data).rsps = s.rsps ++ responseHeader st data.length :: data := rfl
@[simp] theorem State.respond_schedule (s : State) (st : BitVec 8) (data : List Word) :
    (s.respond st data).schedule = s.schedule := rfl
@[simp] theorem State.respond_nctx (s : State) (st : BitVec 8) (data : List Word) :
    (s.respond st data).nctx = s.nctx := rfl

@[simp] theorem State.raise_ctxs (s : State) (e : ErrorKind) : (s.raise e).ctxs = s.ctxs := rfl
@[simp] theorem State.raise_cmds (s : State) (e : ErrorKind) : (s.raise e).cmds = s.cmds := rfl
@[simp] theorem State.raise_rsps (s : State) (e : ErrorKind) :
    (s.raise e).rsps = s.rsps ++ [responseHeader e.code 0] := rfl
@[simp] theorem State.raise_schedule (s : State) (e : ErrorKind) : (s.raise e).schedule = s.schedule := rfl
@[simp] theorem State.raise_nctx (s : State) (e : ErrorKind) : (s.raise e).nctx = s.nctx := rfl

@[simp] theorem State.construct_ctxs (s : State) (k : CtxNum) (sd : Pattern) (p : Params) :
    (s.construct k sd p).ctxs = s.ctxs.set k.toNat (freshContext sd p) := rfl
@[simp] theorem State.construct_cmds (s : State) (k : CtxNum) (sd : Pattern) (p : Params) :
    (s.construct k sd p).cmds = s.cmds := rfl
@[simp] theorem State.construct_rsps (s : State) (k : CtxNum) (sd : Pattern) (p : Params) :
    (s.construct k sd p).rsps = s.rsps ++ [responseHeader statusOk 0] := rfl
@[simp] theorem State.construct_schedule (s : State) (k : CtxNum) (sd : Pattern) (p : Params) :
    (s.construct k sd p).schedule = s.schedule := rfl

@[simp] theorem State.resetEvent_ctxs (s : State) :
    s.resetEvent.ctxs = s.ctxs.map fun _ => Context.reset := rfl
@[simp] theorem State.resetEvent_cmds (s : State) : s.resetEvent.cmds = [] := rfl
@[simp] theorem State.resetEvent_rsps (s : State) : s.resetEvent.rsps = [] := rfl
@[simp] theorem State.resetEvent_schedule (s : State) : s.resetEvent.schedule = s.schedule := rfl
@[simp] theorem State.resetEvent_nctx (s : State) : s.resetEvent.nctx = s.nctx := by simp [State.nctx]

@[simp] theorem State.resetWith_nctx (n : Nat) : (State.resetWith n).nctx = n := by
  simp [State.nctx, State.resetWith]

@[simp] theorem Context.reset_v : Context.reset.v = false := rfl
@[simp] theorem freshContext_v (sd : Pattern) (p : Params) : (freshContext sd p).v = true := rfl
@[simp] theorem freshContext_regs (sd : Pattern) (p : Params) : (freshContext sd p).regs = freshRegs sd p := rfl

/-- Writing a context leaves every other one (rule R28). -/
theorem State.setCtx_other (s : State) (k : CtxNum) (c : Context) (j : Nat) (h : j ≠ k.toNat) :
    (s.setCtx k c).ctxs[j]? = s.ctxs[j]? := by
  simp [Ne.symm h]

/-- Reading a context back after writing it (rule R11). -/
theorem State.setCtx_same (s : State) (k : CtxNum) (c : Context) (h : k.toNat < s.nctx) :
    (s.setCtx k c).ctxs[k.toNat]? = some c := by
  have h' : k.toNat < s.ctxs.length := h
  simp [h']

end Sys2Proof.Machine
end

