-- ==== Sys2Proof/Laws/Ops.lean ====
section
/-! SUPPORT. One lemma per shared operation that says everything it can do, for proofs to cite instead of unfolding it. -/

namespace Sys2Proof.Machine

/-- Acting on a context: the context is there, or the number is out of range and the answer is `IllegalCommand`. -/
theorem State.withCtx_cases (s : State) (k : CtxNum) (f : Context → State) :
    (∃ c, s.ctxs[k.toNat]? = some c ∧ k.toNat < s.nctx ∧ s.withCtx k f = f c) ∨
    (s.ctxs[k.toNat]? = none ∧ s.nctx ≤ k.toNat ∧ s.withCtx k f = s.raise .illegalCommand) := by
  cases h : s.ctxs[k.toNat]? with
  | some c =>
    exact .inl ⟨c, rfl, (List.getElem?_eq_some_iff.mp h).1, by simp [State.withCtx, State.ctx?, h]⟩
  | none =>
    exact .inr ⟨rfl, List.getElem?_eq_none_iff.mp h, by simp [State.withCtx, State.ctx?, h]⟩

theorem State.withCtx_of_some {s : State} {k : CtxNum} {c : Context} (f : Context → State)
    (h : s.ctxs[k.toNat]? = some c) : s.withCtx k f = f c := by
  simp [State.withCtx, State.ctx?, h]

/-- Acting on an instance: it is there, or `V = 0` and the answer is `NotInitialised`, or the number is out of range. -/
theorem State.withInstance_cases (s : State) (k : CtxNum) (f : Regs → State) :
    (∃ r, s.ctxs[k.toNat]? = some ⟨true, r⟩ ∧ k.toNat < s.nctx ∧ s.withInstance k f = f r) ∨
    (∃ r, s.ctxs[k.toNat]? = some ⟨false, r⟩ ∧ k.toNat < s.nctx ∧ s.withInstance k f = s.raise .notInitialised) ∨
    (s.ctxs[k.toNat]? = none ∧ s.nctx ≤ k.toNat ∧ s.withInstance k f = s.raise .illegalCommand) := by
  rcases s.withCtx_cases k (fun c => if c.v then f c.regs else s.raise .notInitialised) with
    ⟨⟨v, r⟩, h, hk, he⟩ | h
  · cases v with
    | true => exact .inl ⟨r, h, hk, by simpa [State.withInstance] using he⟩
    | false => exact .inr (.inl ⟨r, h, hk, by simpa [State.withInstance] using he⟩)
  · exact .inr (.inr h)

/-- Default construction: the fresh instance, or `IllegalCommand`. -/
theorem State.constructDefault_cases (s : State) (k : CtxNum) (sd : Pattern) :
    (k.toNat < s.nctx ∧ s.constructDefault k sd = s.construct k sd Config.defaults) ∨
    (s.nctx ≤ k.toNat ∧ s.constructDefault k sd = s.raise .illegalCommand) := by
  rcases s.withCtx_cases k (fun _ => s.construct k sd Config.defaults) with ⟨_, _, hk, he⟩ | ⟨_, hk, he⟩
  · exact .inl ⟨hk, he⟩
  · exact .inr ⟨hk, he⟩

/-- Construction with parameters: the fresh instance, `InvalidParameter`, or `IllegalCommand`. -/
theorem State.constructWith_cases (s : State) (k : CtxNum) (sd : Pattern) (p : Params) :
    (k.toNat < s.nctx ∧ p.c.toNat < p.a.toNat ∧ s.constructWith k sd p = s.construct k sd p) ∨
    (k.toNat < s.nctx ∧ p.a.toNat ≤ p.c.toNat ∧ s.constructWith k sd p = s.raise .invalidParameter) ∨
    (s.nctx ≤ k.toNat ∧ s.constructWith k sd p = s.raise .illegalCommand) := by
  rcases s.withCtx_cases k (fun _ => if paramOk p.a p.c then s.construct k sd p else s.raise .invalidParameter) with
    ⟨_, _, hk, he⟩ | ⟨_, hk, he⟩
  · by_cases h : p.c.toNat < p.a.toNat
    · exact .inl ⟨hk, h, he.trans (if_pos ((paramOk_iff _ _).mpr h))⟩
    · exact .inr (.inl ⟨hk, by omega, he.trans (if_neg fun hc => h ((paramOk_iff _ _).mp hc))⟩)
  · exact .inr (.inr ⟨hk, he⟩)

/-- A step of a context: the instance advances and its sample is the response, `NotInitialised`, or `IllegalCommand`. -/
theorem State.advance_cases (s : State) (k : CtxNum) :
    (∃ r, s.ctxs[k.toNat]? = some ⟨true, r⟩ ∧ k.toNat < s.nctx ∧
      s.advance k = (s.setCtx k ⟨true, (stepFn r).1⟩).respond statusOk [(stepFn r).2]) ∨
    (∃ r, s.ctxs[k.toNat]? = some ⟨false, r⟩ ∧ k.toNat < s.nctx ∧ s.advance k = s.raise .notInitialised) ∨
    (s.ctxs[k.toNat]? = none ∧ s.nctx ≤ k.toNat ∧ s.advance k = s.raise .illegalCommand) :=
  s.withInstance_cases k _

/-- A bulk response: the samples, or `InvalidArgument`. -/
theorem State.bulk_cases (s : State) (len sd : Pattern) (p : Params) :
    (len.toNat < 2 ^ 31 ∧ s.bulk len sd p = s.respond statusOk (genFn len.toNat (freshRegs sd p))) ∨
    (2 ^ 31 ≤ len.toNat ∧ s.bulk len sd p = s.raise .invalidArgument) := by
  have hl := len.isLt
  have hi : bulkLen len = if len.toNat < 2 ^ 31 then (len.toNat : Int) else len.toNat - 2 ^ 32 := by
    simp only [bulkLen, BitVec.toInt]
    split <;> split <;> omega
  by_cases h : len.toNat < 2 ^ 31
  · rw [if_pos h] at hi
    exact .inl ⟨h, by simp [State.bulk, hi]⟩
  · rw [if_neg h] at hi
    exact .inr ⟨by omega, if_pos (by rw [hi]; omega)⟩

/-- A bulk response with parameters: `InvalidParameter` first, then as without. -/
theorem State.bulkWith_cases (s : State) (len sd : Pattern) (p : Params) :
    (p.c.toNat < p.a.toNat ∧ s.bulkWith len sd p = s.bulk len sd p) ∨
    (p.a.toNat ≤ p.c.toNat ∧ s.bulkWith len sd p = s.raise .invalidParameter) := by
  by_cases h : p.c.toNat < p.a.toNat
  · exact .inl ⟨h, if_pos ((paramOk_iff _ _).mpr h)⟩
  · exact .inr ⟨by omega, if_neg fun hc => h ((paramOk_iff _ _).mp hc)⟩

/-- A response header as a number, for a count that fits its field (rules R84, R158). -/
theorem responseHeader_toNat (st : BitVec 8) (n : Nat) (h : n < 2 ^ 32) :
    (responseHeader st n).toNat = st.toNat * 2 ^ 56 + n := by
  have hs := st.isLt
  have hn : n < 2 ^ 56 := by omega
  simp only [responseHeader, BitVec.toNat_or, BitVec.toNat_shiftLeft, BitVec.toNat_setWidth, BitVec.toNat_ofNat]
  rw [Nat.mod_eq_of_lt (show st.toNat < 2 ^ 64 by omega), Nat.mod_eq_of_lt (show n < 2 ^ 64 by omega),
    Nat.shiftLeft_eq, Nat.mod_eq_of_lt (show st.toNat * 2 ^ 56 < 2 ^ 64 by omega), Nat.mul_comm,
    Nat.two_pow_add_eq_or_of_lt hn]

/-- The host's moves field by field. -/
@[simp] theorem State.hostMove_schedule (s : State) (m : HostMove) : (s.hostMove m).schedule = s.schedule := by
  cases m <;> rfl
@[simp] theorem State.hostMove_nctx (s : State) (m : HostMove) : (s.hostMove m).nctx = s.nctx := by
  cases m <;> simp [State.hostMove, State.nctx]

end Sys2Proof.Machine
end

