-- ==== Sys2Proof/Laws/PerInstr.lean ====
section
/-! SUPPORT. Per constructor: the encoding of a command has the length its header's opcode asks for, `RSV` is zero, and a
pseudo-command has its core's words (30_encoding.md rules R77, R78, R88). -/

namespace Sys2Proof.Laws.EncodingShape

/-- The shape of a command's encoding. -/
def Statement (i : Instr) : Prop :=
  (encode i).length = cmdLength (opcField (cmdWord (encode i) 0)) ∧ rsvField (cmdWord (encode i) 0) = 0 ∧
    encode i.core = encode i

theorem init (k : CtxNum) (sd : Pattern) : Statement (.init k sd) := by
  simp [Statement, encode, cmdWord, Instr.core, Opcode.words]

theorem initp (k : CtxNum) (sd : Pattern) (a c x1 x2 : Word) : Statement (.initp k sd a c x1 x2) := by
  simp [Statement, encode, cmdWord, Instr.core, Opcode.words]

theorem step (k : CtxNum) : Statement (.step k) := by
  simp [Statement, encode, cmdWord, Instr.core, Opcode.words]

theorem gen (len sd : Pattern) : Statement (.gen len sd) := by
  simp [Statement, encode, cmdWord, Instr.core, Opcode.words]

theorem genp (len sd : Pattern) (a c x1 x2 : Word) : Statement (.genp len sd a c x1 x2) := by
  simp [Statement, encode, cmdWord, Instr.core, Opcode.words]

theorem seq (k : CtxNum) (sd : Pattern) : Statement (.seq k sd) := by
  simp [Statement, encode, cmdWord, Instr.core, Opcode.words]

theorem seqp (k : CtxNum) (sd : Pattern) (a c x1 x2 : Word) : Statement (.seqp k sd a c x1 x2) := by
  simp [Statement, encode, cmdWord, Instr.core, Opcode.words]

theorem next (k : CtxNum) : Statement (.next k) := by
  simp [Statement, encode, cmdWord, Instr.core, Opcode.words]

end Sys2Proof.Laws.EncodingShape
end

