-- ==== Sys2Proof/Tests/Slice0.lean ====
section
/-! SUPPORT. Tests of the model against the words and numbers of spec/ (30_encoding.md rule R89; vectors V1 to V30 of the
95, 96 and 97 files), the smoke tests of `Instr.wellFormed`, and a witness for the hypotheses of each obligation. -/

open Sys2Proof Sys2Proof.Machine

namespace Sys2Proof.Tests

/-! ## Small states -/

/-- The state of an outcome; every step of this machine has one. -/
def after (o : Host.Outcome State Fault Refusal) : Option State :=
  match o with
  | .next t => some t
  | .fault _ => none
  | .refused _ => none

/-- The responses after an outcome. -/
def responses (o : Host.Outcome State Fault Refusal) : Option (List Word) := (after o).map fun t => t.rsps

/-- Context `k` after an outcome. -/
def context (o : Host.Outcome State Fault Refusal) (k : Nat) : Option Context := (after o).bind fun t => t.ctxs[k]?

/-- Straight after reset, the words `ws` in the command stream. -/
def sent (ws : List Word) : State := { State.reset with cmds := ws }

/-- After reset, an instance with words `r` in context `k`. -/
def living (k : Nat) (r : Regs) : State := { State.reset with ctxs := State.reset.ctxs.set k ⟨true, r⟩ }

/-- The words `INIT k, 1` leaves (V12). -/
def seedOne : Regs := ⟨1, 0x159A55E5, 0x049E06E9, 0x350B, 0x36A6E006⟩

/-- A header word written field by field: `OPC`, `CTX`, `RSV`, `IMM32` (rule R71). -/
def fields (opc ctx : BitVec 8) (rsv : BitVec 16) (imm : BitVec 32) : Word := opc ++ ctx ++ rsv ++ imm

/-! ## WellFormed: an ill-formed term for the one check, in each constructor that has it -/

theorem test_wellFormed_refuses_context_four :
    (Instr.init 4 1).wellFormed 4 = false ∧ (Instr.initp 4 1 2 1 0 0).wellFormed 4 = false ∧
    (Instr.step 4).wellFormed 4 = false ∧ (Instr.seq 255 1).wellFormed 4 = false ∧
    (Instr.seqp 4 1 2 1 0 0).wellFormed 4 = false ∧ (Instr.next 4).wellFormed 4 = false := by decide

theorem test_wellFormed_accepts :
    (Instr.init 3 1).wellFormed 4 = true ∧ (Instr.step 255).wellFormed 256 = true ∧
    (Instr.gen 0xFFFFFFFF 0).wellFormed 1 = true ∧ (Instr.genp 0 0 0 0 0 0).wellFormed 1 = true := by decide

/-! ## Decoding: words written bit by bit from rules R71, R72, R74, R76 -/

theorem test_decode_init :
    decode 4 [fields 0b00000001 0b00000001 0b0000000000000000 0b00000000000000000000000000101010] =
      .command (.init 1 42) [] := by decide

theorem test_decode_initp :
    decode 4 [fields 0b00000010 0b00000010 0b0000000000000000 0b00000000000000000000000000000111, 11, 12, 13, 14, 15] =
      .command (.initp 2 7 11 12 13 14) [15] := by decide

theorem test_decode_step :
    decode 4 [fields 0b00000011 0b00000011 0b0000000000000000 0b00000000000000000000000000000000] =
      .command (.step 3) [] := by decide

theorem test_decode_gen :
    decode 4 [fields 0b00000100 0b00000000 0b0000000000000000 0b00000000000000000000000000101010,
      (0b00000000000000000000000000000000 : BitVec 32) ++ (0b10000000000000000000000000000011 : BitVec 32)] =
      .command (.gen 0x80000003 42) [] := by decide

theorem test_decode_genp :
    decode 4 [fields 0b00000101 0b00000000 0b0000000000000000 0b11111111111111111111111111111111,
      (0b00000000000000000000000000000000 : BitVec 32) ++ (0b00000000000000000000000000000010 : BitVec 32),
      21, 22, 23, 24] = .command (.genp 2 0xFFFFFFFF 21 22 23 24) [] := by decide

/-- R88: the words of SEQ, SEQP and NEXT are those of INIT, INITP and STEP, and decode to them. -/
theorem test_decode_pseudo :
    decode 4 (encode (.seq 1 42)) = .command (.init 1 42) [] ∧
    decode 4 (encode (.seqp 0 5 7 6 1 2)) = .command (.initp 0 5 7 6 1 2) [] ∧
    decode 4 (encode (.next 1)) = .command (.step 1) [] ∧
    encode (.seq 1 42) = [0x010100000000002A] ∧ encode (.next 1) = [0x0301000000000000] := by decide

/-- V18, conditions (a) and (b), with the words each consumes. -/
theorem test_illegal_opcode_and_reserved :
    decode 4 [0, 9] = .illegal .unknownOpcode [9] ∧
    decode 4 [0xFFFFFFFFFFFFFFFF] = .illegal .unknownOpcode [] ∧
    decode 4 [0x0600000000000000] = .illegal .unknownOpcode [] ∧
    decode 4 [0x0100000100000001] = .illegal .reservedNotZero [] ∧
    decode 4 [0x0300800000000000] = .illegal .reservedNotZero [] ∧
    decode 4 [0x0200800000000001, 2, 1, 5, 6, 9] = .illegal .reservedNotZero [9] := by decide

/-- V18, conditions (c) to (f), with the words each consumes, and its two remarks on `NCTX`. -/
theorem test_illegal_fields :
    decode 4 [0x0104000000000001] = .illegal .contextOutOfRange [] ∧
    decode 4 [0x03FF000000000000] = .illegal .contextOutOfRange [] ∧
    decode 4 [0x0204000000000001, 2, 1, 5, 6, 9] = .illegal .contextOutOfRange [9] ∧
    decode 4 [0x040100000000002A, 3, 9] = .illegal .contextNotZero [9] ∧
    decode 4 [0x0501000000000001, 2, 2, 1, 5, 6, 9] = .illegal .contextNotZero [9] ∧
    decode 4 [0x0300000000000001] = .illegal .immediateNotZero [] ∧
    decode 4 [0x040000000000002A, 0x0000000100000003] = .illegal .lengthReservedNotZero [] ∧
    decode 4 [0x040000000000002A, 0xFFFFFFFFFFFFFFFF] = .illegal .lengthReservedNotZero [] ∧
    decode 4 [0x0500000000000001, 0x8000000000000002, 2, 1, 5, 6] = .illegal .lengthReservedNotZero [] ∧
    decode 1 [0x0301000000000000] = .illegal .contextOutOfRange [] ∧
    decode 256 [0x03FF000000000000] = .command (.step 255) [] := by decide

/-- V19: a known opcode takes its whole length even when illegal; (c) a GENP with three operand words waits. -/
theorem test_decode_length :
    decode 4 [0x0200000100000001, 1, 2, 3, 4, 5] = .illegal .reservedNotZero [5] ∧
    decode 4 [0x0900000000000005, 7] = .illegal .unknownOpcode [7] ∧
    decode 4 [0x0500000000000001, 2, 2, 1] = .wait ∧ decode 4 [] = .idle := by decide

/-! ## The datapath and the operands -/

/-- V11: every row. -/
theorem test_f64bits :
    f64bits 0 = 0 ∧ f64bits 1 = 0x3DF0000000000000 ∧ f64bits 2 = 0x3E00000000000000 ∧
    f64bits 3 = 0x3E08000000000000 ∧ f64bits 5 = 0x3E14000000000000 ∧ f64bits 10 = 0x3E24000000000000 ∧
    f64bits 0x10000 = 0x3EF0000000000000 ∧ f64bits 0x350B = 0x3ECA858000000000 ∧
    f64bits 0x36A71511 = 0x3FCB538A88800000 ∧ f64bits 0x7FFFFFFF = 0x3FDFFFFFFFC00000 ∧
    f64bits 0x80000000 = 0x3FE0000000000000 ∧ f64bits 0x80000001 = 0x3FE0000000200000 ∧
    f64bits 0xFFFFFFFE = 0x3FEFFFFFFFC00000 ∧ f64bits 0xFFFFFFFF = 0x3FEFFFFFFFE00000 := by decide

/-- V25 step 2 and V26 step 3: the product wraps, and the register shift keeps wide words whole. -/
theorem test_stepFn_wraps :
    stepFn ⟨7, 9, 2, 0, 0xFFFFFFFFFFFFFFFF⟩ =
      (⟨9, 2, 0xFFFFFFF9, 0xFFFFFFFF, 0xFFFFFFFFFFFFFFFF⟩, 0x3FEFFFFFFF200000) ∧
    stepFn ⟨0xFFFFFFFFFFFFFFFF, 0xFFFFFFFF, 0xFFFFFFFD, 0, 0xFFFFFFFF⟩ =
      (⟨0xFFFFFFFF, 0xFFFFFFFD, 1, 0xFFFFFFFF, 0xFFFFFFFF⟩, 0x3DF0000000000000) := by decide

/-- V13: the check is unsigned and strict, and the defaults pass it (R103). -/
theorem test_paramOk :
    paramOk 1 0 = true ∧ paramOk 0 0 = false ∧ paramOk 5 5 = false ∧ paramOk 6 5 = true ∧
    paramOk 0x8000000000000000 0x7FFFFFFFFFFFFFFF = true ∧ paramOk 1 0x8000000000000000 = false ∧
    paramOk 0xFFFFFFFFFFFFFFFF 0 = true ∧ paramOk Config.defaults.a Config.defaults.c = true := by decide

/-! ## One step of each command -/

/-- V9, V12: `INIT c0, -1` zero-extends the seed. -/
theorem test_init_negative_seed :
    responses (step (sent [0x01000000FFFFFFFF])) = some [0] ∧
    context (step (sent [0x01000000FFFFFFFF])) 0 =
      some ⟨true, ⟨0xFFFFFFFF, 0x159A55E5, 0x049E06E9, 0x350B, 0x36A6E006⟩⟩ := by decide

/-- V30: `INIT` on a living context starts the stream again. -/
theorem test_init_again :
    context (exec (.init 0 1) (living 0 ⟨9, 8, 7, 6, 5⟩)) 0 = some ⟨true, seedOne⟩ := by decide

/-- V12, last row: the four parameters are stored whole, in their own registers. -/
theorem test_initp_wide :
    context (step (sent [0x0200000000000003, 0x100000000, 0xFFFFFFFF, 0x123456789, 0xFFFFFFFFFFFFFFFF])) 0 =
      some ⟨true, ⟨3, 0x123456789, 0xFFFFFFFFFFFFFFFF, 0xFFFFFFFF, 0x100000000⟩⟩ := by decide

/-- V14: a failing `INITP` keeps the living instance. -/
theorem test_initp_fails :
    context (exec (.initp 0 9 5 5 0 0) (living 0 seedOne)) 0 = some ⟨true, seedOne⟩ ∧
    responses (exec (.initp 0 9 5 5 0 0) (living 0 seedOne)) = some [0x0100000000000000] := by decide

/-- V1: the known vector. -/
theorem test_step_known :
    responses (exec (.step 0) (living 0 seedOne)) = some [1, 0x3FCB538A88800000] ∧
    context (exec (.step 0) (living 0 seedOne)) 0 =
      some ⟨true, ⟨0x159A55E5, 0x049E06E9, 0x36A71511, 0, 0x36A6E006⟩⟩ := by decide

/-- V20 rows 1 and 3: `STEP c0` on an invalid context. -/
theorem test_step_not_initialised :
    responses (step (sent [0x0300000000000000])) = some [0x0300000000000000] ∧
    responses (exec (.step 0) (living 1 seedOne)) = some [0x0300000000000000] := by decide

/-- V15 rows 1, 2 and 5. -/
theorem test_gen_samples :
    responses (step (sent [0x040000000000002A, 3])) =
      some [3, 0x3FEEEC1EC0E00000, 0x3FE1A88C6CC00000, 0x3F9DCAB23C000000] ∧
    responses (step (sent [0x040000000000002A, 0])) = some [0] ∧
    responses (step (sent [0x04000000FFFFFFFF, 2])) =
      some [2, 0x3FE92B2AA0A00000, 0x3FE87D686C600000] := by decide

/-- V15 rows 6 and 7 (V3): negative lengths. -/
theorem test_gen_negative :
    responses (step (sent [0x0400000000000001, 0xFFFFFFFF])) = some [0x0200000000000000] ∧
    responses (step (sent [0x0400000000000001, 0x80000000])) = some [0x0200000000000000] := by decide

/-- V16 rows 1 and 7. -/
theorem test_genp_samples :
    responses (step (sent [0x0500000000000001, 2, 2, 1, 5, 6])) =
      some [2, 0x3E08000000000000, 0x3E24000000000000] ∧
    responses (step (sent [0x0500000000000005, 4, 1, 0, 0, 0])) =
      some [4, 0x3E14000000000000, 0, 0, 0x3E14000000000000] := by decide

/-- V16 rows 4 to 6 and V21: the parameter check comes before the length check. -/
theorem test_genp_errors :
    responses (step (sent [0x0500000000000001, 0, 1, 1, 5, 6])) = some [0x0100000000000000] ∧
    responses (step (sent [0x0500000000000001, 0xFFFFFFFF, 2, 1, 5, 6])) = some [0x0200000000000000] ∧
    responses (step (sent [0x0500000000000001, 0xFFFFFFFF, 1, 1, 5, 6])) = some [0x0100000000000000] := by decide

/-- V17 row 2: `SEQ c1, 42`. -/
theorem test_seq :
    context (exec (.seq 1 42) State.reset) 1 =
      some ⟨true, ⟨0x2A, 0x159A55E5, 0x049E06E9, 0x350B, 0x36A6E006⟩⟩ := by decide

/-- R172: `SEQP c0, 5, 7, 7, 0, 0` fails, and starts no sequence. -/
theorem test_seqp_fails :
    responses (exec (.seqp 0 5 7 7 0 0) State.reset) = some [0x0100000000000000] ∧
    (context (exec (.seqp 0 5 7 7 0 0) State.reset) 0).map (fun c => c.v) = some false := by decide

/-- V2: seed 0 is seed 1, with the parameters `7, 3, 11, 13`. -/
theorem test_seqp_zero_seed :
    context (exec (.seqp 2 0 7 3 11 13) State.reset) 2 = some ⟨true, ⟨1, 11, 13, 3, 7⟩⟩ := by decide

/-- V6 step 2: the state before and after, the sample. -/
theorem test_next :
    responses (exec (.next 1) (living 1 ⟨0x159A55E5, 0x049E06E9, 0xF760F607, 8, 0x36A6E006⟩)) =
      some [1, 0x3FE1A88C6CC00000] ∧
    context (exec (.next 1) (living 1 ⟨0x159A55E5, 0x049E06E9, 0xF760F607, 8, 0x36A6E006⟩)) 1 =
      some ⟨true, ⟨0x049E06E9, 0xF760F607, 0x8D446366, 0x049CA319, 0x36A6E006⟩⟩ := by decide

/-! ## One step of the machine -/

/-- V21 rows 1 and 2: `IllegalCommand` comes before every other error. -/
theorem test_illegal_first :
    responses (step (sent [0x0300000000000007])) = some [0x0400000000000000] ∧
    responses (step (sent [0x0200000100000001, 5, 5, 0, 0])) = some [0x0400000000000000] := by decide

/-- V29 row 3: the reset event ends the instance and empties both streams. -/
theorem test_reset_event :
    (after (step { living 0 seedOne with cmds := [1], rsps := [2, 3], schedule := [.host .reset] })).map
      (fun t => (t.ctxs.map (fun c => c.v), t.cmds, t.rsps)) = some ([false, false, false, false], [], []) := by decide

/-- R51, R52: the host's two other moves, at the tail and at the head. -/
theorem test_host_moves :
    (after (step { sent [1] with schedule := [.host (.append [2, 3])] })).map (fun t => t.cmds) = some [1, 2, 3] ∧
    (after (step { State.reset with rsps := [4, 5], schedule := [.host .remove] })).map (fun t => t.rsps) =
      some [5] := by decide

/-- Log 6: a placed instruction is read by the decoder and run by the very next step. -/
theorem test_fetch_word :
    decodeTableWord 64 0x0101000000000005 = some (.init 1 5) ∧
    decodeTableWord 128 (0x0400000000000007 + 2 ^ 64 * 2) = some (.gen 2 7) ∧
    decodeTableWord 64 0x0600000000000000 = none ∧
    context (step (State.reset.withFetchWord 64 0x0101000000000005)) 1 =
      some ⟨true, ⟨5, 0x159A55E5, 0x049E06E9, 0x350B, 0x36A6E006⟩⟩ := by decide

/-! ## Witnesses: for each obligation with hypotheses, states and operands that meet them, each clause at a boundary -/

theorem witness_MultiplierHasItsLimbForm :
    (0xFFFFFFFF : Word).toNat / 2 ^ 32 = 0 ∧ (0x100000000 : Word).toNat / 2 ^ 32 ≠ 0 := by decide

/-- The registers at the upper edge of the canonical domain (R132). -/
def top : Regs := ⟨0xFFFFFFFF, 0xFFFFFFFF, 0xFFFFFFFF, 0xFFFFFFFF, 0xFFFFFFFF⟩

theorem witness_CanonicalDomainNeverWraps :
    (top.a.toNat < 2 ^ 32 ∧ top.x.toNat < 2 ^ 32 ∧ top.c.toNat < 2 ^ 32) ∧ 3 ≤ 3 := by decide

theorem witness_StepWordsAreBounded :
    (top.a.toNat < 2 ^ 32 ∧ top.x.toNat < 2 ^ 32 ∧ ({ top with c := 0xFFFFFFFE } : Regs).c.toNat < top.a.toNat) ∧
    top.c.toNat < 2 ^ 32 := by decide

theorem witness_F64bitsIsTheExactBinary64Pattern :
    ((1 : Word).toNat < 2 ^ 32 ∧ 2 ^ 0 ≤ (1 : Word).toNat ∧ (1 : Word).toNat < 2 ^ (0 + 1)) ∧
    ((0xFFFFFFFF : Word).toNat < 2 ^ 32 ∧ 2 ^ 31 ≤ (0xFFFFFFFF : Word).toNat ∧
      (0xFFFFFFFF : Word).toNat < 2 ^ (31 + 1)) := by decide

theorem witness_F64bitsRangeAndInverse :
    ((0xFFFFFFFF : Word).toNat < 2 ^ 32 ∧ (0xFFFFFFFF : Word) ≠ 0) ∧ (0 : Word).toNat < 2 ^ 32 ∧
    f64bits 7 = f64bits 7 := by decide

theorem witness_InitAndSeqConstructDefaultInstance :
    (0 : CtxNum).toNat < (State.resetWith 1).nctx ∧ (3 : CtxNum).toNat < (living 3 top).nctx := by decide

theorem witness_InitpAndSeqpConstructSuppliedInstance :
    (3 : CtxNum).toNat < State.reset.nctx ∧ (0 : Word).toNat < (1 : Word).toNat ∧
    ¬ (5 : Word).toNat < (5 : Word).toNat := by decide

theorem witness_BadParametersAreInvalidParameter :
    (5 : Word).toNat ≤ (5 : Word).toNat ∧ (0 : Word).toNat ≤ (0xFFFFFFFFFFFFFFFF : Word).toNat ∧
    (3 : CtxNum).toNat < State.reset.nctx := by decide

theorem witness_StepAndNextAdvanceTheInstance :
    (living 3 top).ctxs[(3 : CtxNum).toNat]? = some ⟨true, top⟩ ∧
    State.reset.ctxs[(3 : CtxNum).toNat]? = some ⟨false, Context.reset.regs⟩ := by decide

/-- The two sides of the length check in GEN and GENP, and of the parameter check in GENP. -/
theorem witness_GenAndGenpReturnTheFirstSamples :
    ¬ 2 ^ 31 ≤ (0x7FFFFFFF : Pattern).toNat ∧ 2 ^ 31 ≤ (0x80000000 : Pattern).toNat ∧
    (5 : Word).toNat ≤ (5 : Word).toNat ∧ ¬ (6 : Word).toNat ≤ (5 : Word).toNat := by decide

theorem witness_BulkLengthIsChecked :
    (0 : Word).toNat < (1 : Word).toNat ∧ (0xFFFFFFFF : Pattern).toInt < 0 ∧ (0x80000000 : Pattern).toInt < 0 ∧
    ¬ (0x7FFFFFFF : Pattern).toInt < 0 ∧ (0 : Pattern) = 0 := by decide

theorem witness_MeaningOfAbsentContextIsIllegalCommand :
    (Instr.step 4).context = some 4 ∧ State.reset.nctx ≤ (4 : CtxNum).toNat ∧
    (Instr.initp 255 0 0 0 0 0).context = some 255 ∧ State.reset.nctx ≤ (255 : CtxNum).toNat := by decide

theorem witness_KnownFirstSampleOfSeedOne : (3 : CtxNum).toNat < State.reset.nctx := by decide

theorem witness_ZeroSeedIsSeedOneAndNoOtherTwoAgree :
    (1 : Pattern) ≠ 0xFFFFFFFF ∧ (1 : Pattern) ≠ 0 ∧ (0xFFFFFFFF : Pattern) ≠ 0 := by decide

theorem witness_DefaultParametersGiveTheDefaultCommands :
    State.reset.EngineMoves [] ∧ (3 : CtxNum).toNat < State.reset.nctx := by
  refine ⟨.inl ⟨rfl, rfl⟩, by decide⟩

theorem witness_InitialisationIsIdempotentAndBulkRepeatable :
    ((Instr.init 0 1).context = some 0 ∧ pulls 0 (.init 0 1) = false) ∧ (Instr.gen 3 42).context = none := by decide

theorem witness_CommandsChangeOnlyTheirContextAndRespond :
    (after (exec (.step 1) (living 1 seedOne))).isSome = true ∧
    (∀ k, (Instr.step 1).context = some k → 0 ≠ k.toNat) ∧ pulls 1 (.step 1) = true ∧
    (living 1 seedOne).ctxs[(1 : CtxNum).toNat]? = some ⟨true, seedOne⟩ := by
  refine ⟨by decide, ?_, by decide, by decide⟩
  intro k h
  cases h
  decide

theorem witness_ErrorResponsesWriteNoRegister :
    (responses (exec (.step 0) State.reset) = some (State.reset.rsps ++ 0x0300000000000000 :: []) ∧
      statusOf 0x0300000000000000 ≠ 0) ∧
    (responses (sent [0]).engineTurn = some ((sent [0]).rsps ++ 0x0400000000000000 :: []) ∧
      statusOf 0x0400000000000000 ≠ 0) := by decide

/-- Each of the three errors, and an OK beside it. -/
theorem witness_ErrorsAreRaisedExactlyByTheirCauses :
    (responses (exec (.initp 0 1 5 5 0 0) State.reset) = some [0x0100000000000000] ∧
      (Instr.initp 0 1 5 5 0 0).wellFormed State.reset.nctx = true) ∧
    (responses (exec (.genp 0x80000000 1 6 5 0 0) State.reset) = some [0x0200000000000000] ∧
      (Instr.genp 0x80000000 1 6 5 0 0).wellFormed State.reset.nctx = true) ∧
    (responses (exec (.next 3) State.reset) = some [0x0300000000000000] ∧
      (Instr.next 3).wellFormed State.reset.nctx = true) ∧
    (responses (exec (.init 3 0) State.reset) = some [0] ∧
      (Instr.init 3 0).wellFormed State.reset.nctx = true) := by decide

theorem witness_DataWordsLieInTheUnitInterval :
    responses (exec (.step 0) (living 0 seedOne)) = some ((living 0 seedOne).rsps ++ 1 :: [0x3FCB538A88800000]) ∧
    statusOf 1 = 0 := by decide

theorem witness_DecodeOfEncodeIsTheCommand :
    (Instr.initp 255 0 0 0 0 0).wellFormed 256 = true ∧ (Instr.next 0).wellFormed 1 = true ∧
    (Instr.genp 0xFFFFFFFF 0xFFFFFFFF 0 0 0 0).wellFormed 1 = true := by decide

theorem witness_EncodeOfDecodeIsTheWords :
    decode 256 [0x03FF000000000000, 7] = .command (.step 255) [7] ∧
    decode 1 [0x04000000FFFFFFFF, 0xFFFFFFFF] = .command (.gen 0xFFFFFFFF 0xFFFFFFFF) [] := by decide

theorem witness_StepRunsTheDecodedCommand :
    (sent [0x0100000000000001]).EngineMoves [] ∧
    { sent [0x0100000000000001] with schedule := [.engine, .host .reset] }.EngineMoves [.host .reset] ∧
    decode (sent [0x0100000000000001]).nctx (sent [0x0100000000000001]).cmds = .command (.init 0 1) [] := by
  refine ⟨.inl ⟨rfl, rfl⟩, .inr rfl, by decide⟩

/-- One word for each of the six conditions, at the boundary of its field, with four contexts. -/
theorem witness_IllegalEncodingsConsumeAndRespond :
    (0x0600000000000000 : Word).toNat / 2 ^ 56 = 6 ∧
    (0x0100000100000000 : Word).toNat / 2 ^ 32 % 2 ^ 16 ≠ 0 ∧
    State.reset.nctx ≤ (0x0304000000000000 : Word).toNat / 2 ^ 48 % 2 ^ 8 ∧
    (0x0401000000000000 : Word).toNat / 2 ^ 48 % 2 ^ 8 ≠ 0 ∧
    (0x0300000000000001 : Word).toNat % 2 ^ 32 ≠ 0 ∧
    ((sent [0x0400000000000000, 0x0000000100000000]).cmds.getD 1 0).toNat / 2 ^ 32 ≠ 0 ∧
    2 ≤ (sent [0x0400000000000000, 0x0000000100000000]).cmds.length := by decide

theorem witness_IncompleteCommandChangesNothing :
    State.reset.EngineMoves [] ∧ State.reset.cmds = [] ∧
    (sent [0x0500000000000001, 2, 2, 1, 5]).cmds.length < 6 ∧ (0x0500000000000001 : Word).toNat / 2 ^ 56 = 5 := by
  refine ⟨.inl ⟨rfl, rfl⟩, by decide⟩

theorem witness_WholeCommandIsConsumedAndAnsweredOnce :
    (sent [0x0200000000000001, 2, 1, 0, 0]).EngineMoves [] ∧
    (sent [0x0200000000000001, 2, 1, 0, 0]).cmds = 0x0200000000000001 :: [2, 1, 0, 0] ∧
    (0x0200000000000001 : Word).toNat / 2 ^ 56 = 2 ∧ 5 ≤ (sent [0x0200000000000001, 2, 1, 0, 0]).cmds.length := by
  refine ⟨.inl ⟨rfl, rfl⟩, by decide⟩

theorem witness_HostMovesChangeOneStream :
    { State.reset with schedule := [.host (.append [1])] }.schedule = .host (.append [1]) :: [] ∧
    ({ State.reset with rsps := [5], schedule := [.host .remove] }.schedule = .host .remove :: [] ∧
      { State.reset with rsps := [5], schedule := [.host .remove] }.rsps = 5 :: []) ∧
    { State.reset with schedule := [.host .remove] }.rsps = [] := by decide

theorem witness_ResetEndsEveryInstance :
    { living 0 seedOne with schedule := [.host .reset] }.schedule = .host .reset :: [] := by decide

theorem witness_ValidFlagAndMultiplierPersist :
    (after (step { living 1 top with cmds := [0x0101000000000001] })).isSome = true ∧
    { living 1 top with cmds := [0x0101000000000001] }.ctxs[(1 : CtxNum).toNat]? = some ⟨true, top⟩ ∧
    (∀ ts, { living 1 top with cmds := [0x0101000000000001] }.schedule ≠ .host .reset :: ts) ∧
    seedOne.a ≠ top.a := by
  refine ⟨by decide, by decide, fun ts h => ?_, by decide⟩
  cases h

theorem witness_PlacedCommandRunsNext :
    (sent [7]).nctx = Config.nctx ∧ decodeTableWord 64 0x0303000000000000 = some (.step 3) := by decide

/-- A state after reset meets the invariant, and so does one with an instance on each side of `Lawful`. -/
theorem witness_StepKeepsTheInvariant :
    State.reset.Inv ∧ (living 0 seedOne).Inv ∧ (living 3 top).Inv ∧
    (after (step { living 0 seedOne with cmds := [0x0300000000000000] })).isSome = true := by
  unfold State.Inv Regs.Lawful
  decide

theorem witness_ResetMeetsTheInvariant : (1 : Nat) ≤ 1 ∧ 1 ≤ 256 ∧ 256 ≤ 256 := by decide

theorem witness_ThreeAccessPatternsGiveOneStream :
    (3 : CtxNum).toNat < State.reset.nctx ∧ (0x7FFFFFFF : Pattern).toNat < 2 ^ 31 ∧ (0 : Pattern).toNat < 2 ^ 31 ∧
    (0 : Word).toNat < (1 : Word).toNat := by decide

/-- The four ways to start a stream, and commands that may follow: pulls, other contexts, bulk, a failing INITP. -/
theorem witness_PulledSamplesAreTheStream :
    (1 : CtxNum).toNat < State.reset.nctx ∧
    (∃ sd, (Instr.seq 1 42 = .init 1 sd ∨ Instr.seq 1 42 = .seq 1 sd) ∧
      (⟨42, 362436069, 77465321, 13579, 916905990⟩ : Regs) =
        ⟨seedword sd, 362436069, 77465321, 13579, 916905990⟩) ∧
    (∃ sd a c x1 x2, (Instr.initp 1 0 7 6 5 4 = .initp 1 sd a c x1 x2 ∨
        Instr.initp 1 0 7 6 5 4 = .seqp 1 sd a c x1 x2) ∧
      c.toNat < a.toNat ∧ (⟨1, 5, 4, 6, 7⟩ : Regs) = ⟨seedword sd, x1, x2, c, a⟩) ∧
    (∀ i ∈ [Instr.step 1, .gen 3 42, .init 0 1, .next 1, .initp 1 9 5 5 0 0, .step 1],
      initialises 1 i = false) := by
  refine ⟨by decide, ⟨42, .inr rfl, by decide⟩, ⟨0, 7, 6, 5, 4, .inl rfl, by decide, by decide⟩, by decide⟩

theorem witness_EncodedProgramRunsInOrder :
    (∀ i ∈ [Instr.seq 3 42, .gen 0 0, .next 3], i.wellFormed State.reset.nctx = true) ∧
    (sent ([Instr.seq 3 42, .gen 0 0, .next 3].flatMap encode ++ [9])).schedule = [] ∧
    (sent ([Instr.seq 3 42, .gen 0 0, .next 3].flatMap encode ++ [9])).cmds =
      [Instr.seq 3 42, .gen 0 0, .next 3].flatMap encode ++ [9] := by decide

theorem witness_RunsEndCleanlyExactlyWhenWordsParse :
    (sent [0x0300000000000000, 0x0200000000000000]).schedule = [] := by decide

/-- Two states that differ in the registers of an invalid context. -/
theorem witness_UnspecifiedRegistersAreNeverObserved :
    ({ State.resetWith 1 with ctxs := [⟨false, seedOne⟩] } : State).SameSeen (State.resetWith 1) ∧
    ({ State.resetWith 1 with ctxs := [⟨false, seedOne⟩] } : State) ≠ State.resetWith 1 := by
  refine ⟨⟨.cons ⟨rfl, fun h => absurd h (by decide)⟩ .nil, rfl, rfl, rfl⟩, by decide⟩

theorem witness_StepsNarrowTheRegisters : 1 ≤ 1 ∧ 2 ≤ 2 ∧ 3 ≤ 3 := by decide

theorem witness_WordsAreTheLastThreeOutputs : 3 ≤ 3 ∧ 1 ≤ 1 := by decide

/-- The registers of V22: canonical, and a fixed point with `A >= 2`. -/
def fixedTop : Regs := ⟨0xFFFFFFFF, 0xFFFFFFFF, 0xFFFFFFFF, 0x36A6E005, 0x36A6E006⟩

theorem witness_CarryStaysBelowTheMultiplier :
    (living 3 fixedTop).ctxs[(3 : CtxNum).toNat]? = some ⟨true, fixedTop⟩ ∧ fixedTop.Canonical ∧
    ((0xFFFFFFFF : Word).toNat < 2 ^ 32 ∧ (0xFFFFFFFE : Word).toNat < (0xFFFFFFFF : Word).toNat) ∧
    2 ^ 32 ≤ (0x100000000 : Word).toNat := by
  unfold Regs.Canonical
  decide

theorem witness_CanonicalStepIsAPermutation :
    fixedTop.Canonical ∧ seedOne.Canonical ∧ fixedTop.a = seedOne.a ∧ (stepFn fixedTop).1 = (stepFn fixedTop).1 ∧
    (⟨0, 0, 0, 0, 1⟩ : Regs).Canonical ∧ (advanceN 0 ⟨0, 0, 0, 0, 1⟩).AllZero := by
  unfold Regs.Canonical Regs.AllZero
  decide

theorem witness_FixedPointsOfTheCanonicalStep :
    (fixedTop.Canonical ∧ 2 ≤ fixedTop.a.toNat) ∧
    ((⟨5, 5, 5, 0, 1⟩ : Regs).Canonical ∧ (⟨5, 5, 5, 0, 1⟩ : Regs).a.toNat = 1) ∧
    (2 ≤ (2 : Word).toNat ∧ (0xFFFFFFFF : Word).toNat < 2 ^ 32) := by
  unfold Regs.Canonical
  decide

end Sys2Proof.Tests
end

/-! PROOFS. The response stream: every command appends one whole response (30_encoding.md rules R83 to R85). -/

namespace Sys2Proof.Machine

/-! ### The fields of a response header -/

theorem statusOf_responseHeader (st : BitVec 8) (n : Nat) (hn : n < 2 ^ 32) :
    statusOf (responseHeader st n) = st.toNat := by
  rw [statusOf, responseHeader_toNat st n hn]
  omega

theorem rzeroOf_responseHeader (st : BitVec 8) (n : Nat) (hn : n < 2 ^ 32) :
    rzeroOf (responseHeader st n) = 0 := by
  rw [rzeroOf, responseHeader_toNat st n hn]
  omega

theorem countOf_responseHeader (st : BitVec 8) (n : Nat) (hn : n < 2 ^ 32) :
    countOf (responseHeader st n) = n := by
  rw [countOf, responseHeader_toNat st n hn]
  omega

/-- The error codes are 1 to 4 (rule R85): an error is never answered `OK`. -/
theorem ErrorKind.code_range (e : ErrorKind) : 1 ≤ e.code.toNat ∧ e.code.toNat ≤ 4 := by
  cases e <;> decide

theorem isResponse_ok (data : List Word) (hlen : data.length < 2 ^ 32) :
    IsResponse (responseHeader statusOk data.length) data := by
  have hst : statusOf (responseHeader statusOk data.length) = 0 := statusOf_responseHeader _ _ hlen
  exact ⟨by omega, rzeroOf_responseHeader _ _ hlen, countOf_responseHeader _ _ hlen, fun h => absurd hst h⟩

theorem isResponse_error (e : ErrorKind) : IsResponse (responseHeader e.code 0) [] := by
  have hst := statusOf_responseHeader e.code 0 (by decide)
  have hcode := e.code_range
  exact ⟨by omega, rzeroOf_responseHeader _ _ (by decide), countOf_responseHeader _ _ (by decide), fun _ => rfl⟩

/-! ### One whole response -/

/-- From `s` to `t` the response stream grew by one whole response of at most `2^31 - 1` data words, whose header is
`STATUS * 2^56 + COUNT`, and which has `n` data words when it is `OK` (rules R84, R85). -/
def RespondsOnce (s t : State) (n : Nat) : Prop :=
  ∃ h data, t.rsps = s.rsps ++ h :: data ∧ IsResponse h data ∧
    h.toNat = statusOf h * 2 ^ 56 + data.length ∧ data.length ≤ 2 ^ 31 - 1 ∧
    (statusOf h = 0 → data.length = n)

theorem respondsOnce_ok {s t : State} {data : List Word} (hlen : data.length ≤ 2 ^ 31 - 1)
    (ht : t.rsps = s.rsps ++ responseHeader statusOk data.length :: data) : RespondsOnce s t data.length := by
  have hlen32 : data.length < 2 ^ 32 := by omega
  refine ⟨_, data, ht, isResponse_ok data hlen32, ?_, hlen, fun _ => rfl⟩
  rw [statusOf_responseHeader _ _ hlen32, responseHeader_toNat _ _ hlen32]

/-- An error is a whole response without data, whatever count the command's `OK` has. -/
theorem respondsOnce_raise (s : State) (e : ErrorKind) (n : Nat) : RespondsOnce s (s.raise e) n := by
  have hst := statusOf_responseHeader e.code 0 (by decide)
  have hcode := e.code_range
  refine ⟨_, [], s.raise_rsps e, isResponse_error e, ?_, by decide, fun h => by omega⟩
  rw [hst, responseHeader_toNat _ _ (by decide), List.length_nil]

/-! ### The operations of the commands -/

theorem State.construct_respondsOnce (s : State) (k : CtxNum) (sd : Pattern) (p : Params) :
    RespondsOnce s (s.construct k sd p) 0 :=
  respondsOnce_ok (data := []) (by decide) (s.construct_rsps k sd p)

theorem State.constructDefault_respondsOnce (s : State) (k : CtxNum) (sd : Pattern) :
    RespondsOnce s (s.constructDefault k sd) 0 := by
  rcases s.constructDefault_cases k sd with ⟨_, he⟩ | ⟨_, he⟩ <;> rw [he]
  · exact s.construct_respondsOnce k sd _
  · exact respondsOnce_raise s _ 0

theorem State.constructWith_respondsOnce (s : State) (k : CtxNum) (sd : Pattern) (p : Params) :
    RespondsOnce s (s.constructWith k sd p) 0 := by
  rcases s.constructWith_cases k sd p with ⟨_, _, he⟩ | ⟨_, _, he⟩ | ⟨_, he⟩ <;> rw [he]
  · exact s.construct_respondsOnce k sd p
  · exact respondsOnce_raise s _ 0
  · exact respondsOnce_raise s _ 0

theorem State.advance_respondsOnce (s : State) (k : CtxNum) : RespondsOnce s (s.advance k) 1 := by
  rcases s.advance_cases k with ⟨r, _, _, he⟩ | ⟨_, _, _, he⟩ | ⟨_, _, he⟩ <;> rw [he]
  · exact respondsOnce_ok (data := [(stepFn r).2]) (by simp) (by simp)
  · exact respondsOnce_raise s _ 1
  · exact respondsOnce_raise s _ 1

/-- A non-negative length is below `2^31`, so the samples of a bulk command fit `COUNT` (rule R158). -/
theorem State.bulk_respondsOnce (s : State) (len sd : Pattern) (p : Params) :
    RespondsOnce s (s.bulk len sd p) len.toNat := by
  rcases s.bulk_cases len sd p with ⟨hlen, he⟩ | ⟨_, he⟩ <;> rw [he]
  · have hcount := genFn_length len.toNat (freshRegs sd p)
    have hok := respondsOnce_ok (by rw [hcount]; omega)
      (s.respond_rsps statusOk (genFn len.toNat (freshRegs sd p)))
    rwa [hcount] at hok
  · exact respondsOnce_raise s _ _

theorem State.bulkWith_respondsOnce (s : State) (len sd : Pattern) (p : Params) :
    RespondsOnce s (s.bulkWith len sd p) len.toNat := by
  rcases s.bulkWith_cases len sd p with ⟨_, he⟩ | ⟨_, he⟩ <;> rw [he]
  · exact s.bulk_respondsOnce len sd p
  · exact respondsOnce_raise s _ _

/-! ### The commands -/

/-- `COUNT` of the `OK` response of each command (rule R85). -/
def okCount : Instr → Nat
  | .init _ _ => 0
  | .initp _ _ _ _ _ _ => 0
  | .step _ => 1
  | .gen len _ => len.toNat
  | .genp len _ _ _ _ _ => len.toNat
  | .seq _ _ => 0
  | .seqp _ _ _ _ _ _ => 0
  | .next _ => 1

theorem exec_respondsOnce (i : Instr) (s : State) : ∃ t, exec i s = .next t ∧ RespondsOnce s t (okCount i) := by
  cases i with
  | init k sd => exact ⟨_, rfl, s.constructDefault_respondsOnce k sd⟩
  | initp k sd a c x1 x2 => exact ⟨_, rfl, s.constructWith_respondsOnce k sd ⟨a, c, x1, x2⟩⟩
  | step k => exact ⟨_, rfl, s.advance_respondsOnce k⟩
  | gen len sd => exact ⟨_, rfl, s.bulk_respondsOnce len sd _⟩
  | genp len sd a c x1 x2 => exact ⟨_, rfl, s.bulkWith_respondsOnce len sd ⟨a, c, x1, x2⟩⟩
  | seq k sd => exact ⟨_, rfl, s.constructDefault_respondsOnce k sd⟩
  | seqp k sd a c x1 x2 => exact ⟨_, rfl, s.constructWith_respondsOnce k sd ⟨a, c, x1, x2⟩⟩
  | next k => exact ⟨_, rfl, s.advance_respondsOnce k⟩

/-- Settles O21: each command is one of the four operations above, and each of them appends one whole response. -/
theorem everyCommandAppendsOneWholeResponse : Obligations.EveryCommandAppendsOneWholeResponse := by
  unfold Obligations.EveryCommandAppendsOneWholeResponse
  intro i s
  obtain ⟨t, hexec, h, data, hrsps, hresp, hheader, hmax, hcount⟩ := exec_respondsOnce i s
  refine ⟨t, h, data, hexec, hrsps, hresp, hheader, hmax, fun hok => ?_⟩
  have hlen := hcount hok
  cases i <;> exact hlen

end Sys2Proof.Machine

/-! PROOFS. The decoder's refusals: what a command that is read satisfies, and what the engine does with one that is not
(30_encoding.md rules R77, R79, R82). -/

namespace Sys2Proof

/-! ### Opcodes and lengths -/

/-- A byte that stands for no opcode is no opcode's byte (rule R76). -/
theorem Opcode.ne_toByte_of_ofByte_none {b : BitVec 8} (h : Opcode.ofByte b = none) (o : Opcode) :
    b.toNat ≠ o.toByte.toNat := by
  intro heq
  rw [BitVec.eq_of_toNat_eq heq, Opcode.ofByte_toByte] at h
  cases h

theorem Opcode.toByte_range (o : Opcode) : 1 ≤ o.toByte.toNat ∧ o.toByte.toNat ≤ 5 := by
  cases o <;> decide

/-- The commands of opcodes 4 and 5 have a `LEN` word (rules R74, R77). -/
theorem Opcode.two_le_words (o : Opcode) (h : 4 ≤ o.toByte.toNat) : 2 ≤ o.words := by
  revert h
  cases o <;> decide

/-- The length of a command as rule R77 tabulates it. -/
theorem cmdLength_eq (b : BitVec 8) :
    cmdLength b = if b.toNat = 2 then 5 else if b.toNat = 4 then 2 else if b.toNat = 5 then 6 else 1 := by
  cases hb : Opcode.ofByte b with
  | some o =>
    rw [← Opcode.toByte_of_ofByte hb, cmdLength_toByte]
    cases o <;> rfl
  | none =>
    have hne := Opcode.ne_toByte_of_ofByte_none hb
    calc cmdLength b = 1 := by rw [cmdLength, hb]
      _ = _ := by
        rw [if_neg (show b.toNat ≠ 2 from hne .initp), if_neg (show b.toNat ≠ 4 from hne .gen),
          if_neg (show b.toNat ≠ 5 from hne .genp)]

/-- The words of the command at the head of a stream are the stream's first words. -/
theorem cmdWord_take (ws : List Word) {n i : Nat} (hi : i < n) : cmdWord (ws.take n) i = ws.getD i 0 := by
  simp [cmdWord, List.getD_eq_getElem?_getD, hi]

/-! ### What a command that is read satisfies -/

/-- The fields that rule R79 (c) to (f) restricts, for each opcode. -/
def FieldsLegal (nctx : Nat) (cmd : List Word) : Opcode → Prop
  | .init => (ctxField (cmdWord cmd 0)).toNat < nctx
  | .initp => (ctxField (cmdWord cmd 0)).toNat < nctx
  | .step => (ctxField (cmdWord cmd 0)).toNat < nctx ∧ immField (cmdWord cmd 0) = 0
  | .gen => ctxField (cmdWord cmd 0) = 0 ∧ lenRsvField (cmdWord cmd 1) = 0
  | .genp => ctxField (cmdWord cmd 0) = 0 ∧ lenRsvField (cmdWord cmd 1) = 0

/-- A test of rule R79 is passed where the answer is a command. -/
theorem ite_error_eq_ok {p : Prop} [Decidable p] {e : IllegalCause} {x : Except IllegalCause Instr} {i : Instr} :
    (if p then .error e else x) = .ok i ↔ ¬p ∧ x = .ok i := by
  by_cases hp : p <;> simp [hp]

/-- A command is read only where none of the six conditions of rule R79 holds. -/
theorem readCommand_ok_legal {nctx : Nat} {cmd : List Word} {i : Instr} (h : readCommand nctx cmd = .ok i) :
    ∃ o, Opcode.ofByte (opcField (cmdWord cmd 0)) = some o ∧ rsvField (cmdWord cmd 0) = 0 ∧
      FieldsLegal nctx cmd o := by
  unfold readCommand at h
  cases ho : Opcode.ofByte (opcField (cmdWord cmd 0)) with
  | none => simp [ho] at h
  | some o =>
    simp only [ho, ite_error_eq_ok, ne_eq, not_not] at h
    obtain ⟨hrsv, h⟩ := h
    refine ⟨o, rfl, hrsv, ?_⟩
    cases o <;> simp only [ite_error_eq_ok, not_le, not_not] at h
    case init => exact h.1
    case initp => exact h.1
    case step => exact ⟨h.1, h.2.1⟩
    case gen => exact ⟨h.1, h.2.1⟩
    case genp => exact ⟨h.1, h.2.1⟩

/-- The legal fields as numbers: (c) `CTX` below `NCTX` in opcodes 1 to 3, (d) and (f) `CTX` and `LENRSV` zero in
opcodes 4 and 5, (e) `IMM32` zero in opcode 3. -/
theorem FieldsLegal.toNat {nctx : Nat} {cmd : List Word} {o : Opcode} (h : FieldsLegal nctx cmd o) :
    (o.toByte.toNat ≤ 3 → (cmdWord cmd 0).toNat / 2 ^ 48 % 2 ^ 8 < nctx) ∧
    (4 ≤ o.toByte.toNat → (cmdWord cmd 0).toNat / 2 ^ 48 % 2 ^ 8 = 0 ∧ (cmdWord cmd 1).toNat / 2 ^ 32 = 0) ∧
    (o.toByte.toNat = 3 → (cmdWord cmd 0).toNat % 2 ^ 32 = 0) := by
  rw [← ctxField_toNat, ← immField_toNat, ← lenRsvField_toNat]
  cases o <;> simp_all [FieldsLegal, Opcode.toByte]

/-- A command read at the head of a stream, on the numbers of its header `h` and of the word after it: its opcode is
known and none of the conditions of rule R79 holds. -/
theorem legal_of_read_at_head {nctx : Nat} {h : Word} {ws : List Word} {i : Instr}
    (hread : readCommand nctx ((h :: ws).take (cmdLength (opcField h))) = .ok i) :
    (1 ≤ h.toNat / 2 ^ 56 ∧ h.toNat / 2 ^ 56 ≤ 5) ∧ h.toNat / 2 ^ 32 % 2 ^ 16 = 0 ∧
    (h.toNat / 2 ^ 56 ≤ 3 → h.toNat / 2 ^ 48 % 2 ^ 8 < nctx) ∧
    (4 ≤ h.toNat / 2 ^ 56 → h.toNat / 2 ^ 48 % 2 ^ 8 = 0 ∧ ((h :: ws).getD 1 0).toNat / 2 ^ 32 = 0) ∧
    (h.toNat / 2 ^ 56 = 3 → h.toNat % 2 ^ 32 = 0) := by
  obtain ⟨o, ho, hrsv, hlegal⟩ := readCommand_ok_legal hread
  obtain ⟨hctx, hbulk, himm⟩ := hlegal.toNat
  rw [cmdWord_take _ (cmdLength_pos _), List.getD_cons_zero] at ho hrsv hctx hbulk himm
  have hbyte : o.toByte = opcField h := Opcode.toByte_of_ofByte ho
  have hopc : o.toByte.toNat = h.toNat / 2 ^ 56 := by rw [hbyte, opcField_toNat]
  have hlenWord : 4 ≤ o.toByte.toNat →
      cmdWord ((h :: ws).take (cmdLength (opcField h))) 1 = (h :: ws).getD 1 0 := fun h4 =>
    cmdWord_take _ (by rw [← hbyte, cmdLength_toByte]; exact o.two_le_words h4)
  rw [← hopc]
  refine ⟨o.toByte_range, ?_, hctx, fun h4 => ?_, himm⟩
  · rw [← rsvField_toNat, hrsv]; rfl
  · rw [← hlenWord h4]; exact hbulk h4

/-! ### Streams whose first command is whole and not read -/

theorem decode_of_not_read {nctx : Nat} {h : Word} {ws : List Word}
    (hwhole : cmdLength (opcField h) ≤ (h :: ws).length)
    (hno : ∀ i, readCommand nctx ((h :: ws).take (cmdLength (opcField h))) ≠ .ok i) :
    ∃ why, decode nctx (h :: ws) = .illegal why ((h :: ws).drop (cmdLength (opcField h))) := by
  cases hread : readCommand nctx ((h :: ws).take (cmdLength (opcField h))) with
  | ok i => exact absurd hread (hno i)
  | error why => exact ⟨why, by simp only [decode, if_neg (Nat.not_lt.mpr hwhole), hread]⟩

end Sys2Proof

namespace Sys2Proof.Machine

/-- An illegal command loses its words and is answered with the one word of `IllegalCommand` (rules R79, R85). -/
theorem State.engineTurn_of_illegal {s : State} {why : IllegalCause} {rest : List Word}
    (hdec : decode s.nctx s.cmds = .illegal why rest) :
    s.engineTurn = .next { s with cmds := rest, rsps := s.rsps ++ [0x0400000000000000] } := by
  simp only [State.engineTurn, hdec]
  rfl

/-- Settles O29: a command that is read has legal fields, which each of the six conditions contradicts; so the whole
command at the head is not read, and the engine removes it as illegal. -/
theorem illegalEncodingsConsumeAndRespond : Obligations.IllegalEncodingsConsumeAndRespond := by
  unfold Obligations.IllegalEncodingsConsumeAndRespond
  intro s h ws hcmds opc ctx rsv imm len hwhole hillegal
  have hlen : cmdLength (opcField h) = len := by rw [cmdLength_eq, opcField_toNat]
  rw [hcmds] at hwhole hillegal
  have hnotRead : ∀ i, readCommand s.nctx ((h :: ws).take (cmdLength (opcField h))) ≠ .ok i := by
    intro i hread
    obtain ⟨hopc, hrsv, hctx, hbulk, himm⟩ := legal_of_read_at_head hread
    rcases hillegal with ha | ⟨_, hb | hc | hd | he | hf⟩
    · omega
    · exact hb hrsv
    · exact absurd (hctx hc.1) (Nat.not_lt.mpr hc.2)
    · exact hd.2 (hbulk hd.1).1
    · exact he.2 (himm he.1)
    · exact hf.2 (hbulk hf.1).2
  obtain ⟨why, hdec⟩ := decode_of_not_read (hlen ▸ hwhole) hnotRead
  rw [← hcmds, hlen] at hdec
  exact State.engineTurn_of_illegal hdec

end Sys2Proof.Machine

/-! PROOFS. Construction and seeding: INIT, INITP and their lazy names, and the parameter check they share with GENP
(40_construct.md rules R101 to R106; 43_lazy.md rules R171, R172; 42_bulk.md rule R157). -/

namespace Sys2Proof

/-- A header as the number of its fields (rule R71). -/
theorem header_eq_ofNat (o : Opcode) (k : CtxNum) (imm : Pattern) :
    header o k imm = BitVec.ofNat 64 (o.toByte.toNat * 2 ^ 56 + k.toNat * 2 ^ 48 + imm.toNat) := by
  rw [← header_toNat, BitVec.ofNat_toNat, BitVec.setWidth_eq]

end Sys2Proof

namespace Sys2Proof.Machine

/-! ### The meanings as operations over the state -/

@[simp] theorem exec_init (k : CtxNum) (sd : Pattern) (s : State) :
    exec (.init k sd) s = .next (s.constructDefault k sd) := rfl

@[simp] theorem exec_seq (k : CtxNum) (sd : Pattern) (s : State) :
    exec (.seq k sd) s = .next (s.constructDefault k sd) := rfl

@[simp] theorem exec_initp (k : CtxNum) (sd : Pattern) (a c x1 x2 : Word) (s : State) :
    exec (.initp k sd a c x1 x2) s = .next (s.constructWith k sd ⟨a, c, x1, x2⟩) := rfl

@[simp] theorem exec_seqp (k : CtxNum) (sd : Pattern) (a c x1 x2 : Word) (s : State) :
    exec (.seqp k sd a c x1 x2) s = .next (s.constructWith k sd ⟨a, c, x1, x2⟩) := rfl

@[simp] theorem exec_genp (len sd : Pattern) (a c x1 x2 : Word) (s : State) :
    exec (.genp len sd a c x1 x2) s = .next (s.bulkWith len sd ⟨a, c, x1, x2⟩) := rfl

/-! ### The seed -/

/-- The seed conditioning on numbers (rule R101). -/
theorem seedword_toNat (sd : Pattern) : (seedword sd).toNat = if sd.toNat = 0 then 1 else sd.toNat := by
  by_cases hzero : sd = 0
  · subst hzero
    rfl
  · have hne : sd.toNat ≠ 0 := fun h => hzero (BitVec.eq_of_toNat_eq h)
    simp only [seedword, if_neg hzero, if_neg hne]
    exact BitVec.toNat_setWidth_of_le (by decide)

/-- Settles O1: a pattern that is not zero keeps its value, which is below `2^32`. -/
theorem seedwordSubstitutesZeroAndZeroExtends : Obligations.SeedwordSubstitutesZeroAndZeroExtends := by
  unfold Obligations.SeedwordSubstitutesZeroAndZeroExtends
  intro sd
  have hlt := sd.isLt
  refine ⟨seedword_toNat sd, ?_⟩
  rw [seedword_toNat]
  split <;> omega

/-! ### Whole next states -/

/-- A failed parameter check appends one word and leaves the rest of the state (rules R85, R205). -/
theorem State.raise_invalidParameter (s : State) :
    s.raise .invalidParameter = { s with rsps := s.rsps ++ [0x0100000000000000] } := rfl

/-- A construction writes its context and appends one word, and leaves the rest of the state (rules R104, R105). -/
theorem State.construct_eq (s : State) (k : CtxNum) (sd : Pattern) (p : Params) :
    s.construct k sd p = { s with
      ctxs := s.ctxs.set k.toNat ⟨true, ⟨seedword sd, p.x1, p.x2, p.c, p.a⟩⟩
      rsps := s.rsps ++ [0x0000000000000000] } := rfl

/-- On an existing context the default construction never fails (rule R104). -/
theorem State.constructDefault_of_lt {s : State} {k : CtxNum} (hk : k.toNat < s.nctx) (sd : Pattern) :
    s.constructDefault k sd = s.construct k sd Config.defaults := by
  rcases s.constructDefault_cases k sd with ⟨_, he⟩ | ⟨hge, _⟩
  · exact he
  · omega

theorem State.constructWith_of_carry_lt {s : State} {k : CtxNum} {p : Params} (hk : k.toNat < s.nctx)
    (hp : p.c.toNat < p.a.toNat) (sd : Pattern) : s.constructWith k sd p = s.construct k sd p := by
  rcases s.constructWith_cases k sd p with ⟨_, _, he⟩ | ⟨_, hle, _⟩ | ⟨hge, _⟩
  · exact he
  · omega
  · omega

theorem State.constructWith_of_le_carry {s : State} {k : CtxNum} {p : Params} (hk : k.toNat < s.nctx)
    (hp : p.a.toNat ≤ p.c.toNat) (sd : Pattern) : s.constructWith k sd p = s.raise .invalidParameter := by
  rcases s.constructWith_cases k sd p with ⟨_, hlt, _⟩ | ⟨_, _, he⟩ | ⟨hge, _⟩
  · omega
  · exact he
  · omega

/-- The parameter check of GENP comes before its length check (rule R157). -/
theorem State.bulkWith_of_le_carry {p : Params} (hp : p.a.toNat ≤ p.c.toNat) (s : State) (len sd : Pattern) :
    s.bulkWith len sd p = s.raise .invalidParameter := by
  rcases s.bulkWith_cases len sd p with ⟨hlt, _⟩ | ⟨_, he⟩
  · omega
  · exact he

/-! ### The statements -/

/-- Settles O8: on an existing context both meanings are the construction with the default parameters. -/
theorem initAndSeqConstructDefaultInstance : Obligations.InitAndSeqConstructDefaultInstance := by
  unfold Obligations.InitAndSeqConstructDefaultInstance
  intro s k sd
  refine ⟨⟨congrArg (fun h => [h]) (header_eq_ofNat .init k sd), rfl⟩, ?_⟩
  intro hk t
  have hnext : s.constructDefault k sd = t := (State.constructDefault_of_lt hk sd).trans (s.construct_eq k sd _)
  rw [exec_init, exec_seq, hnext]
  exact ⟨rfl, rfl⟩

/-- Settles O9: on an existing context both meanings construct where `c < a`, and raise `InvalidParameter` elsewhere. -/
theorem initpAndSeqpConstructSuppliedInstance : Obligations.InitpAndSeqpConstructSuppliedInstance := by
  unfold Obligations.InitpAndSeqpConstructSuppliedInstance
  intro s k sd a c x1 x2
  refine ⟨⟨congrArg (fun h => [h, a, c, x1, x2]) (header_eq_ofNat .initp k sd), rfl⟩, ?_⟩
  intro hk t
  have hnext : s.constructWith k sd ⟨a, c, x1, x2⟩ = t := by
    by_cases hp : c.toNat < a.toNat
    · calc s.constructWith k sd ⟨a, c, x1, x2⟩
        _ = s.construct k sd ⟨a, c, x1, x2⟩ := State.constructWith_of_carry_lt hk hp sd
        _ = t := (s.construct_eq k sd _).trans (if_pos hp).symm
    · calc s.constructWith k sd ⟨a, c, x1, x2⟩
        _ = s.raise .invalidParameter := State.constructWith_of_le_carry hk (Nat.not_lt.mp hp) sd
        _ = t := s.raise_invalidParameter.trans (if_neg hp).symm
  rw [exec_initp, exec_seqp, hnext]
  exact ⟨rfl, rfl⟩

/-- Settles O10: the parameter check fails in all three commands, in GENP before the length is looked at. -/
theorem badParametersAreInvalidParameter : Obligations.BadParametersAreInvalidParameter := by
  unfold Obligations.BadParametersAreInvalidParameter
  intro s k sd len a c x1 x2 hp t
  have hraise : s.raise .invalidParameter = t := s.raise_invalidParameter
  rw [exec_initp, exec_seqp, exec_genp, State.bulkWith_of_le_carry hp, hraise]
  refine ⟨fun hk => ?_, rfl⟩
  rw [State.constructWith_of_le_carry hk hp, hraise]
  exact ⟨rfl, rfl⟩

end Sys2Proof.Machine

/-! PROOFS. Stepping one instance: the step function on numbers, and STEP with its lazy name NEXT (41_step.md rules R121
to R129; 43_lazy.md rule R173). -/

namespace Sys2Proof.Machine

/-! ### The step function -/

/-- Settles O2: the words that shift are the old ones, the two halves of the sum are its quotient and remainder, and the
output word converts the low half. -/
theorem stepFnFollowsTheRecurrence : Obligations.StepFnFollowsTheRecurrence := by
  unfold Obligations.StepFnFollowsTheRecurrence
  intro r t
  have hsum : (stepSum r).toNat = t := stepSum_toNat r
  have hcarry : (stepFn r).1.c.toNat = t / 2 ^ 32 := by rw [stepFn_c, carryWord_toNat, hsum]
  have hlow : (stepFn r).1.z.toNat = t % 2 ^ 32 := by rw [stepFn_z, lowWord_toNat, hsum]
  have hout : (stepFn r).2 = f64bits (BitVec.ofNat 64 (t % 2 ^ 32)) := by
    rw [← hlow, BitVec.ofNat_toNat, BitVec.setWidth_eq, stepFn_out, stepFn_z]
  exact ⟨stepFn_x r, stepFn_y r, hcarry, hlow, stepFn_a r, hout⟩

/-- The step function as one equation between words, its sum a number (rules R121, R124). -/
theorem stepFn_eq_ofNat (r : Regs) :
    stepFn r =
      let t := (r.a.toNat * r.x.toNat + r.c.toNat) % 2 ^ 64
      (⟨r.y, r.z, BitVec.ofNat 64 (t % 2 ^ 32), BitVec.ofNat 64 (t / 2 ^ 32), r.a⟩,
        f64bits (BitVec.ofNat 64 (t % 2 ^ 32))) := by
  obtain ⟨hx, hy, hc, hz, ha, hout⟩ := stepFnFollowsTheRecurrence r
  simp only [← hc, ← hz, BitVec.ofNat_toNat, BitVec.setWidth_eq] at hout ⊢
  rw [← hout, ← hx, ← hy, ← ha]

/-! ### The words of STEP and NEXT -/

/-- The header of STEP is the number of its opcode and its context (rules R71, R76). -/
theorem header_step_eq_ofNat (k : CtxNum) :
    header .step k 0 = BitVec.ofNat 64 (0x03 * 2 ^ 56 + k.toNat * 2 ^ 48) := by
  simp [header_eq_ofNat, Opcode.toByte]

/-! ### The meanings as operations over the state -/

@[simp] theorem exec_step (k : CtxNum) (s : State) : exec (.step k) s = .next (s.advance k) := rfl

@[simp] theorem exec_next (k : CtxNum) (s : State) : exec (.next k) s = .next (s.advance k) := rfl

/-! ### Whole next states -/

/-- An `OK` response with one sample is the header `COUNT = 1` and the sample (rules R84, R85). -/
theorem State.respond_sample (s : State) (w : Word) :
    s.respond statusOk [w] = { s with rsps := s.rsps ++ [0x0000000000000001, w] } := by
  have hheader : responseHeader statusOk 1 = 0x0000000000000001 := rfl
  rw [State.respond, List.length_singleton, hheader]

/-- A valid context takes its next registers, and its sample is the one data word of the response (rule R129). -/
theorem State.advance_of_valid {s : State} {k : CtxNum} {r : Regs} (h : s.ctxs[k.toNat]? = some ⟨true, r⟩) :
    s.advance k = { s with
      ctxs := s.ctxs.set k.toNat ⟨true, (stepFn r).1⟩
      rsps := s.rsps ++ [0x0000000000000001, (stepFn r).2] } :=
  calc s.advance k
    _ = (s.setCtx k ⟨true, (stepFn r).1⟩).respond statusOk [(stepFn r).2] := State.withCtx_of_some _ h
    _ = _ := State.respond_sample _ _

/-- A context without an instance is answered with the one word of `NotInitialised` (rules R85, R129, R203). -/
theorem State.advance_of_invalid {s : State} {k : CtxNum} {r : Regs} (h : s.ctxs[k.toNat]? = some ⟨false, r⟩) :
    s.advance k = { s with rsps := s.rsps ++ [0x0300000000000000] } :=
  State.withCtx_of_some _ h

/-! ### The statement -/

/-- Settles O11: both meanings are the advance of the context, which steps a valid instance and refuses an invalid one. -/
theorem stepAndNextAdvanceTheInstance : Obligations.StepAndNextAdvanceTheInstance := by
  unfold Obligations.StepAndNextAdvanceTheInstance
  intro s k v r
  refine ⟨⟨congrArg (fun h => [h]) (header_step_eq_ofNat k), rfl⟩, ?_⟩
  intro hctx t z' c' u
  have hnext : s.advance k = u := by
    cases v with
    | true => rw [State.advance_of_valid hctx, stepFn_eq_ofNat]; rfl
    | false => exact State.advance_of_invalid hctx
  rw [exec_step, exec_next, hnext]
  exact ⟨rfl, rfl⟩

end Sys2Proof.Machine

/-! PROOFS. Bulk generation: the samples of GEN and GENP as the first outputs of a stream, and their length check
(42_bulk.md rules R151 to R157). -/

namespace Sys2Proof.Machine

/-! ### The samples -/

theorem streamOut_zero (r : Regs) : streamOut r 0 = (stepFn r).2 := rfl

theorem streamOut_succ (r : Regs) (j : Nat) : streamOut r (j + 1) = streamOut (stepFn r).1 j := rfl

/-- Bulk samples are the first outputs of the stream from the same words (rules R151, R180). -/
theorem genFn_eq_map_streamOut (n : Nat) (r : Regs) : genFn n r = (List.range n).map (streamOut r) := by
  induction n generalizing r with
  | zero => rfl
  | succ n ih =>
    calc genFn (n + 1) r
      _ = streamOut r 0 :: (List.range n).map (streamOut (stepFn r).1) := by rw [genFn, ih, streamOut_zero]
      _ = streamOut r 0 :: (List.range n).map (fun j => streamOut r (j + 1)) := by simp only [streamOut_succ]
      _ = (List.range (n + 1)).map (streamOut r) := by
        rw [List.range_succ_eq_map, List.map_cons, List.map_map]; rfl

/-! ### The words of GEN and GENP -/

/-- A `LEN` word is the number of its length (rule R74). -/
theorem lenWord_eq_ofNat (len : Pattern) : lenWord len = BitVec.ofNat 64 len.toNat := by
  rw [← lenWord_toNat, BitVec.ofNat_toNat, BitVec.setWidth_eq]

/-- The headers of commands that name no context: the opcode and the seed alone (rules R71, R78). -/
theorem header_zero_eq_ofNat (o : Opcode) (sd : Pattern) :
    header o 0 sd = BitVec.ofNat 64 (o.toByte.toNat * 2 ^ 56 + sd.toNat) := by
  simp [header_eq_ofNat]

/-! ### Whole next states -/

@[simp] theorem exec_gen (len sd : Pattern) (s : State) :
    exec (.gen len sd) s = .next (s.bulk len sd Config.defaults) := rfl

/-- The header of an `OK` response is its count (rules R84, R85). -/
theorem responseHeader_ok (n : Nat) : responseHeader statusOk n = BitVec.ofNat 64 n := by
  simp [responseHeader, statusOk]

/-- A length that is not negative appends the header and the first samples, and leaves the rest of the state (rules
R152, R153). -/
theorem State.bulk_of_nonneg {len : Pattern} (hlen : len.toNat < 2 ^ 31) (s : State) (sd : Pattern) (p : Params) :
    s.bulk len sd p = { s with
      rsps := s.rsps ++ BitVec.ofNat 64 len.toNat :: (List.range len.toNat).map (streamOut (freshRegs sd p)) } := by
  rcases s.bulk_cases len sd p with ⟨_, he⟩ | ⟨hge, _⟩
  · rw [he, State.respond, genFn_length, responseHeader_ok, genFn_eq_map_streamOut]
  · omega

/-- A negative length appends one word and leaves the rest of the state (rules R85, R156). -/
theorem State.bulk_of_neg {len : Pattern} (hlen : 2 ^ 31 ≤ len.toNat) (s : State) (sd : Pattern) (p : Params) :
    s.bulk len sd p = { s with rsps := s.rsps ++ [0x0200000000000000] } := by
  rcases s.bulk_cases len sd p with ⟨hlt, _⟩ | ⟨_, he⟩
  · omega
  · exact he

/-- Length 0 appends the header of an empty `OK` response and leaves the rest of the state (rule R156). -/
theorem State.bulk_zero (s : State) (sd : Pattern) (p : Params) :
    s.bulk 0 sd p = { s with rsps := s.rsps ++ [0x0000000000000000] } :=
  State.bulk_of_nonneg (by decide) s sd p

/-- The bulk response on both sides of the length check (rules R153, R156). -/
theorem State.bulk_eq (s : State) (len sd : Pattern) (p : Params) :
    s.bulk len sd p = { s with
      rsps := s.rsps ++
        if 2 ^ 31 ≤ len.toNat then [0x0200000000000000]
        else BitVec.ofNat 64 len.toNat :: (List.range len.toNat).map (streamOut (freshRegs sd p)) } := by
  split
  case isTrue hneg => exact State.bulk_of_neg hneg s sd p
  case isFalse hnonneg => exact State.bulk_of_nonneg (Nat.not_le.mp hnonneg) s sd p

/-- With acceptable parameters GENP is bulk generation from them (rule R154). -/
theorem State.bulkWith_of_carry_lt {p : Params} (hp : p.c.toNat < p.a.toNat) (s : State) (len sd : Pattern) :
    s.bulkWith len sd p = s.bulk len sd p := by
  rcases s.bulkWith_cases len sd p with ⟨_, he⟩ | ⟨hle, _⟩
  · exact he
  · omega

/-! ### The statements -/

/-- Settles O12: GEN is bulk generation from the fresh words of the default parameters. -/
theorem genReturnsTheFirstSamples : Obligations.GenReturnsTheFirstSamples := by
  unfold Obligations.GenReturnsTheFirstSamples
  intro s len sd
  refine ⟨?_, ?_⟩
  · rw [encode, header_zero_eq_ofNat, lenWord_eq_ofNat]; rfl
  · rw [exec_gen, State.bulk_eq]; rfl

/-- Settles O13: the parameter check decides first, and where it passes GENP is bulk generation from its operands. -/
theorem genpReturnsTheFirstSamples : Obligations.GenpReturnsTheFirstSamples := by
  unfold Obligations.GenpReturnsTheFirstSamples
  intro s len sd a c x1 x2
  refine ⟨?_, ?_⟩
  · rw [encode, header_zero_eq_ofNat, lenWord_eq_ofNat]; rfl
  · rw [exec_genp]
    by_cases hp : a.toNat ≤ c.toNat
    · rw [State.bulkWith_of_le_carry hp, State.raise_invalidParameter, if_pos hp]
    · rw [State.bulkWith_of_carry_lt (Nat.not_le.mp hp), State.bulk_eq, if_neg hp]; rfl

/-- Settles O14: past the parameter check GENP is bulk generation as GEN is, and bulk generation checks the sign. -/
theorem bulkLengthIsChecked : Obligations.BulkLengthIsChecked := by
  unfold Obligations.BulkLengthIsChecked
  intro s len sd a c x1 x2 hp
  rw [exec_gen, exec_genp, State.bulkWith_of_carry_lt hp]
  refine ⟨fun hneg => ?_, fun hzero => ?_⟩
  · have hlen : 2 ^ 31 ≤ len.toNat := by
      have hsign := BitVec.toInt_neg_iff.mp hneg
      omega
    rw [State.bulk_of_neg hlen, State.bulk_of_neg hlen]
    exact ⟨rfl, rfl⟩
  · rw [hzero, State.bulk_zero, State.bulk_zero]
    exact ⟨rfl, rfl⟩

end Sys2Proof.Machine

/-! PROOFS. The errors: which error answers a command, and what an error answer leaves unchanged (60_exceptions.md rules
R201 to R203, R208). -/

namespace Sys2Proof.Machine

/-! ### The error that answers a command -/

/-- The check of the context a command names, if any (rule R79 (c), log 7). -/
def contextError (s : State) : Option CtxNum → Option ErrorKind
  | some k => if k.toNat < s.nctx then none else some .illegalCommand
  | none => none

/-- The check of the parameters (rules R102, R201). -/
def parameterError (a c : Word) : Option ErrorKind :=
  if c.toNat < a.toNat then none else some .invalidParameter

/-- The check of the bulk length (rules R156, R202). -/
def lengthError (len : Pattern) : Option ErrorKind :=
  if len.toNat < 2 ^ 31 then none else some .invalidArgument

/-- The check of the valid flag of an existing context (rule R203). -/
def instanceError (s : State) (k : CtxNum) : Option ErrorKind :=
  if s.ctxs[k.toNat]?.map Context.v = some false then some .notInitialised else none

/-- The error of a command's own checks, the earlier check first (rules R106, R157, R201 to R203). -/
def operationError (s : State) : Instr → Option ErrorKind
  | .init _ _ => none
  | .initp _ _ a c _ _ => parameterError a c
  | .step k => instanceError s k
  | .gen len _ => lengthError len
  | .genp len _ a c _ _ => (parameterError a c).or (lengthError len)
  | .seq _ _ => none
  | .seqp _ _ a c _ _ => parameterError a c
  | .next k => instanceError s k

/-- The error that answers a command in state `s`, or none where the answer is `OK`. -/
def errorOf (s : State) (i : Instr) : Option ErrorKind := (contextError s i.context).or (operationError s i)

/-! ### What an answer is -/

/-- From `s` to `t` one response was given: an `OK` where there is no error, and otherwise the error and nothing else. -/
def AnsweredWith (s t : State) : Option ErrorKind → Prop
  | none => ∃ h data, t.rsps = s.rsps ++ h :: data ∧ statusOf h = 0
  | some e => t = s.raise e

/-- `STATUS` of an answer (rule R85). -/
def errorStatus : Option ErrorKind → Nat
  | none => 0
  | some e => e.code.toNat

theorem errorStatus_eq_code_iff (err : Option ErrorKind) (e : ErrorKind) :
    errorStatus err = e.code.toNat ↔ err = some e := by
  cases err with
  | none => cases e <;> decide
  | some e' => cases e' <;> cases e <;> decide

theorem answeredWith_none {s t : State} {data : List Word} (hlen : data.length < 2 ^ 32)
    (ht : t.rsps = s.rsps ++ responseHeader statusOk data.length :: data) : AnsweredWith s t none :=
  ⟨_, data, ht, statusOf_responseHeader _ _ hlen⟩

/-- An error answer is one word, and the whole state is kept but for it (rules R205, R208). -/
theorem AnsweredWith.eq_of_error {s t : State} {e : ErrorKind} {h : Word} {data : List Word}
    (ht : AnsweredWith s t (some e)) (hrsps : t.rsps = s.rsps ++ h :: data) :
    h = responseHeader e.code 0 ∧ data = [] ∧ t = { s with rsps := s.rsps ++ [h] } := by
  have hraise : t = s.raise e := ht
  rw [hraise, State.raise_rsps] at hrsps
  obtain ⟨rfl, rfl⟩ := List.cons.inj (List.append_cancel_left hrsps)
  exact ⟨rfl, rfl, hraise⟩

theorem AnsweredWith.statusOf_eq {s t : State} {err : Option ErrorKind} {h : Word} {data : List Word}
    (ht : AnsweredWith s t err) (hrsps : t.rsps = s.rsps ++ h :: data) : statusOf h = errorStatus err := by
  cases err with
  | none =>
    obtain ⟨h', data', hrsps', hok⟩ := ht
    obtain ⟨rfl, -⟩ := List.cons.inj (List.append_cancel_left (hrsps.symm.trans hrsps'))
    exact hok
  | some e =>
    obtain ⟨rfl, -, -⟩ := ht.eq_of_error hrsps
    exact statusOf_responseHeader _ _ (by decide)

/-- A non-zero `STATUS` is that of an error, so the answer is its only effect (rule R208). -/
theorem AnsweredWith.eq_of_statusOf_ne_zero {s t : State} {err : Option ErrorKind} {h : Word} {data : List Word}
    (ht : AnsweredWith s t err) (hrsps : t.rsps = s.rsps ++ h :: data) (hst : statusOf h ≠ 0) :
    data = [] ∧ t = { s with rsps := s.rsps ++ [h] } := by
  cases err with
  | none => exact absurd (ht.statusOf_eq hrsps) hst
  | some e => exact (ht.eq_of_error hrsps).2

/-! ### The operations of the commands -/

theorem State.constructDefault_answeredWith (s : State) (k : CtxNum) (sd : Pattern) :
    AnsweredWith s (s.constructDefault k sd) ((contextError s (some k)).or none) := by
  rcases s.constructDefault_cases k sd with ⟨hk, he⟩ | ⟨hk, he⟩ <;> rw [he, contextError]
  · rw [if_pos hk]
    exact answeredWith_none (data := []) (by decide) (s.construct_rsps k sd _)
  · rw [if_neg (Nat.not_lt.mpr hk)]
    rfl

theorem State.constructWith_answeredWith (s : State) (k : CtxNum) (sd : Pattern) (p : Params) :
    AnsweredWith s (s.constructWith k sd p) ((contextError s (some k)).or (parameterError p.a p.c)) := by
  rcases s.constructWith_cases k sd p with ⟨hk, hp, he⟩ | ⟨hk, hp, he⟩ | ⟨hk, he⟩ <;>
    rw [he, contextError, parameterError]
  · rw [if_pos hk, if_pos hp]
    exact answeredWith_none (data := []) (by decide) (s.construct_rsps k sd p)
  · rw [if_pos hk, if_neg (Nat.not_lt.mpr hp)]
    rfl
  · rw [if_neg (Nat.not_lt.mpr hk)]
    rfl

theorem State.advance_answeredWith (s : State) (k : CtxNum) :
    AnsweredWith s (s.advance k) ((contextError s (some k)).or (instanceError s k)) := by
  rcases s.advance_cases k with ⟨r, hctx, hk, he⟩ | ⟨r, hctx, hk, he⟩ | ⟨_, hk, he⟩ <;>
    rw [he, contextError, instanceError]
  · rw [if_pos hk, hctx]
    exact answeredWith_none (data := [(stepFn r).2]) (by simp) (by simp)
  · rw [if_pos hk, hctx]
    rfl
  · rw [if_neg (Nat.not_lt.mpr hk)]
    rfl

theorem State.bulk_answeredWith (s : State) (len sd : Pattern) (p : Params) :
    AnsweredWith s (s.bulk len sd p) (lengthError len) := by
  rcases s.bulk_cases len sd p with ⟨hlen, he⟩ | ⟨hlen, he⟩ <;> rw [he, lengthError]
  · rw [if_pos hlen]
    exact answeredWith_none (by rw [genFn_length]; omega) (s.respond_rsps _ _)
  · rw [if_neg (Nat.not_lt.mpr hlen)]
    rfl

theorem State.bulkWith_answeredWith (s : State) (len sd : Pattern) (p : Params) :
    AnsweredWith s (s.bulkWith len sd p) ((parameterError p.a p.c).or (lengthError len)) := by
  rcases s.bulkWith_cases len sd p with ⟨hp, he⟩ | ⟨hp, he⟩ <;> rw [he, parameterError]
  · rw [if_pos hp]
    exact s.bulk_answeredWith len sd p
  · rw [if_neg (Nat.not_lt.mpr hp)]
    rfl

/-! ### The commands -/

/-- Every command gives the answer that `errorOf` names. -/
theorem exec_answeredWith {i : Instr} {s t : State} (hexec : exec i s = .next t) : AnsweredWith s t (errorOf s i) := by
  cases i with
  | init k sd => cases hexec; exact s.constructDefault_answeredWith k sd
  | initp k sd a c x1 x2 => cases hexec; exact s.constructWith_answeredWith k sd ⟨a, c, x1, x2⟩
  | step k => cases hexec; exact s.advance_answeredWith k
  | gen len sd => cases hexec; exact s.bulk_answeredWith len sd _
  | genp len sd a c x1 x2 => cases hexec; exact s.bulkWith_answeredWith len sd ⟨a, c, x1, x2⟩
  | seq k sd => cases hexec; exact s.constructDefault_answeredWith k sd
  | seqp k sd a c x1 x2 => cases hexec; exact s.constructWith_answeredWith k sd ⟨a, c, x1, x2⟩
  | next k => cases hexec; exact s.advance_answeredWith k

/-- What the engine's turn can do: nothing, where no whole command has arrived; the answer `IllegalCommand`; or a
command (rules R79, R81, R82). -/
theorem State.engineTurn_cases {s t : State} (hturn : s.engineTurn = .next t) :
    ((decode s.nctx s.cmds = .idle ∨ decode s.nctx s.cmds = .wait) ∧ t = s) ∨
    (∃ why rest, decode s.nctx s.cmds = .illegal why rest ∧ t = { s with cmds := rest }.raise .illegalCommand) ∨
    (∃ i rest, decode s.nctx s.cmds = .command i rest ∧ exec i { s with cmds := rest } = .next t) := by
  rw [State.engineTurn] at hturn
  cases hdec : decode s.nctx s.cmds with
  | idle => rw [hdec] at hturn; cases hturn; exact .inl ⟨.inl rfl, rfl⟩
  | wait => rw [hdec] at hturn; cases hturn; exact .inl ⟨.inr rfl, rfl⟩
  | illegal why rest => rw [hdec] at hturn; cases hturn; exact .inr (.inl ⟨why, rest, rfl, rfl⟩)
  | command i rest => rw [hdec] at hturn; exact .inr (.inr ⟨i, rest, rfl, hturn⟩)

/-- Settles O22: an error answer keeps the rest of the state, be it to a command or to an illegal one, and a turn of the
engine without a whole command responds with nothing. -/
theorem errorResponsesWriteNoRegister : Obligations.ErrorResponsesWriteNoRegister := by
  unfold Obligations.ErrorResponsesWriteNoRegister
  refine ⟨fun i s t h data hexec hrsps hst => (exec_answeredWith hexec).eq_of_statusOf_ne_zero hrsps hst, ?_⟩
  intro s t h data hturn hrsps hst
  rcases State.engineTurn_cases hturn with ⟨_, rfl⟩ | ⟨_, rest, _, hraise⟩ | ⟨i, rest, _, hexec⟩
  · simp at hrsps
  · have hillegal : AnsweredWith { s with cmds := rest } t (some .illegalCommand) := hraise
    obtain ⟨hdata, ht⟩ := hillegal.eq_of_statusOf_ne_zero hrsps hst
    exact ⟨hdata, by rw [ht]⟩
  · obtain ⟨hdata, ht⟩ := (exec_answeredWith hexec).eq_of_statusOf_ne_zero hrsps hst
    exact ⟨hdata, by rw [ht]⟩

/-! ### The causes -/

/-- The range of the context number is the one check that a well-formed command has passed (rule R79 (c)). -/
theorem errorOf_of_wellFormed {i : Instr} {s : State} (hwf : i.wellFormed s.nctx = true) :
    errorOf s i = operationError s i := by
  rw [errorOf]
  rw [Instr.wellFormed] at hwf
  cases hctx : i.context with
  | none => rfl
  | some k =>
    rw [hctx] at hwf
    rw [contextError, if_pos (of_decide_eq_true hwf), Option.none_or]

@[simp] theorem parameterError_eq_none_iff (a c : Word) : parameterError a c = none ↔ c.toNat < a.toNat := by
  simp [parameterError]

@[simp] theorem parameterError_eq_some_iff (a c : Word) (e : ErrorKind) :
    parameterError a c = some e ↔ a.toNat ≤ c.toNat ∧ .invalidParameter = e := by
  simp [parameterError]

@[simp] theorem lengthError_eq_some_iff (len : Pattern) (e : ErrorKind) :
    lengthError len = some e ↔ len.toInt < 0 ∧ .invalidArgument = e := by
  have hneg : ¬ len.toNat < 2 ^ 31 ↔ len.toInt < 0 := by
    rw [BitVec.toInt_neg_iff]
    omega
  rw [lengthError, ← hneg]
  split <;> simp_all

@[simp] theorem instanceError_eq_some_iff (s : State) (k : CtxNum) (e : ErrorKind) :
    instanceError s k = some e ↔ (∃ r, s.ctxs[k.toNat]? = some ⟨false, r⟩) ∧ .notInitialised = e := by
  have hinvalid : s.ctxs[k.toNat]?.map Context.v = some false ↔ ∃ r, s.ctxs[k.toNat]? = some ⟨false, r⟩ := by
    rw [Option.map_eq_some_iff]
    exact ⟨fun ⟨⟨_, r⟩, hctx, hv⟩ => ⟨r, hv ▸ hctx⟩, fun ⟨r, hctx⟩ => ⟨⟨false, r⟩, hctx, rfl⟩⟩
  rw [instanceError, ← hinvalid]
  split <;> simp_all

/-- Settles O23: a well-formed command's `STATUS` is the code of the error of its own checks. -/
theorem errorsAreRaisedExactlyByTheirCauses : Obligations.ErrorsAreRaisedExactlyByTheirCauses := by
  unfold Obligations.ErrorsAreRaisedExactlyByTheirCauses
  intro i s t h data hexec hrsps hwf
  have hcode (e : ErrorKind) : statusOf h = e.code.toNat ↔ operationError s i = some e := by
    rw [(exec_answeredWith hexec).statusOf_eq hrsps, errorStatus_eq_code_iff, errorOf_of_wellFormed hwf]
  have h1 : statusOf h = 1 ↔ operationError s i = some .invalidParameter := hcode .invalidParameter
  have h2 : statusOf h = 2 ↔ operationError s i = some .invalidArgument := hcode .invalidArgument
  have h3 : statusOf h = 3 ↔ operationError s i = some .notInitialised := hcode .notInitialised
  have h4 : statusOf h = 4 ↔ operationError s i = some .illegalCommand := hcode .illegalCommand
  rw [h1, h2, h3, ne_eq, h4]
  cases i with
  | genp len sd a c x1 x2 => simp [operationError, pulls, and_comm]
  | _ => simp [operationError, pulls]

end Sys2Proof.Machine

/-! PROOFS. The decoder and the encoder are inverse to each other (30_encoding.md rules R71 to R82, R88, R89). -/

namespace Sys2Proof

/-! ### Whole commands at the head of a stream -/

/-- Every command's encoding has the length its opcode asks for and is its core's encoding. -/
theorem encode_shape (i : Instr) : Laws.EncodingShape.Statement i := by
  cases i with
  | init k sd => exact Laws.EncodingShape.init k sd
  | initp k sd a c x1 x2 => exact Laws.EncodingShape.initp k sd a c x1 x2
  | step k => exact Laws.EncodingShape.step k
  | gen len sd => exact Laws.EncodingShape.gen len sd
  | genp len sd a c x1 x2 => exact Laws.EncodingShape.genp len sd a c x1 x2
  | seq k sd => exact Laws.EncodingShape.seq k sd
  | seqp k sd a c x1 x2 => exact Laws.EncodingShape.seqp k sd a c x1 x2
  | next k => exact Laws.EncodingShape.next k

theorem encode_length (i : Instr) : (encode i).length = cmdLength (opcField (cmdWord (encode i) 0)) :=
  (encode_shape i).1

/-- The decoder reads a whole legal command whatever follows it. -/
theorem decode_append_of_read {nctx : Nat} {cmd rest : List Word} {i : Instr}
    (hlen : cmd.length = cmdLength (opcField (cmdWord cmd 0))) (hread : readCommand nctx cmd = .ok i) :
    decode nctx (cmd ++ rest) = .command i rest := by
  cases cmd with
  | nil => exact absurd hlen (Nat.ne_of_lt (cmdLength_pos _))
  | cons h tl =>
    have hn : cmdLength (opcField h) = (h :: tl).length := hlen.symm
    have hwhole : ¬ ((h :: tl) ++ rest).length < cmdLength (opcField h) := by rw [hn, List.length_append]; omega
    rw [List.cons_append] at hwhole ⊢
    simp only [decode, if_neg hwhole]
    rw [hn, ← List.cons_append, List.take_left, hread, List.drop_left]

/-- The tests of rule R79 pass on the words of a well-formed command, and the fields are its operands. -/
theorem readCommand_encode {nctx : Nat} {i : Instr} (hwf : i.wellFormed nctx = true) :
    readCommand nctx (encode i) = .ok i.core := by
  cases i <;> simp_all [Instr.wellFormed, Instr.context, readCommand, encode, cmdWord, Instr.core]

/-- Settles O25: a well-formed command's words are a whole command and read back as its core. -/
theorem decodeOfEncodeIsTheCommand : Obligations.DecodeOfEncodeIsTheCommand := by
  unfold Obligations.DecodeOfEncodeIsTheCommand
  intro nctx i rest hwf
  exact decode_append_of_read (encode_length i) (readCommand_encode hwf)

/-! ### What was decoded -/

/-- What a decoded command was read from: the words before `rest`, as many as their opcode asks for. -/
theorem decode_command_inv {nctx : Nat} {ws rest : List Word} {i : Instr} (h : decode nctx ws = .command i rest) :
    ∃ cmd, ws = cmd ++ rest ∧ cmd.length = cmdLength (opcField (cmdWord cmd 0)) ∧ readCommand nctx cmd = .ok i := by
  cases ws with
  | nil => cases h
  | cons w tl =>
    by_cases hshort : (w :: tl).length < cmdLength (opcField w)
    · simp only [decode, if_pos hshort] at h
      cases h
    · simp only [decode, if_neg hshort] at h
      cases hread : readCommand nctx ((w :: tl).take (cmdLength (opcField w))) with
      | error why => rw [hread] at h; cases h
      | ok j =>
        rw [hread] at h
        cases h
        refine ⟨_, (List.take_append_drop _ _).symm, ?_, hread⟩
        rw [cmdWord_take _ (cmdLength_pos _), List.length_take, List.getD_cons_zero]
        omega

/-- A command as the list of its words. -/
theorem map_cmdWord_range (cmd : List Word) : (List.range cmd.length).map (cmdWord cmd) = cmd := by
  refine List.ext_getElem (by simp) fun n h₁ h₂ => ?_
  rw [List.getElem_map, List.getElem_range, cmdWord, List.getD_eq_getElem _ _ h₂]

/-- A command with as many words as its opcode asks for, read without an error, is the encoding of what was read. -/
theorem encode_of_readCommand {nctx : Nat} {cmd : List Word} {i : Instr}
    (hlen : cmd.length = cmdLength (opcField (cmdWord cmd 0))) (hread : readCommand nctx cmd = .ok i) :
    encode i = cmd ∧ i.wellFormed nctx = true ∧ i.core = i := by
  obtain ⟨o, ho, hrsv, -⟩ := readCommand_ok_legal hread
  have hopc : opcField (cmdWord cmd 0) = o.toByte := (Opcode.toByte_of_ofByte ho).symm
  have hheader := header_of_fields o (cmdWord cmd 0) hopc hrsv
  have hwords := map_cmdWord_range cmd
  rw [hlen, hopc, cmdLength_toByte] at hwords
  simp only [readCommand, ho, hrsv, ne_eq, not_true_eq_false, if_false] at hread
  cases o <;> simp only [ite_error_eq_ok, not_le, not_not, Except.ok.injEq] at hread
  case init =>
    obtain ⟨hk, rfl⟩ := hread
    refine ⟨?_, decide_eq_true hk, rfl⟩
    rw [encode, hheader]
    exact hwords
  case initp =>
    obtain ⟨hk, rfl⟩ := hread
    refine ⟨?_, decide_eq_true hk, rfl⟩
    rw [encode, hheader]
    exact hwords
  case step =>
    obtain ⟨hk, himm, rfl⟩ := hread
    refine ⟨?_, decide_eq_true hk, rfl⟩
    rw [encode, ← himm, hheader]
    exact hwords
  case gen =>
    obtain ⟨hk, hrsvLen, rfl⟩ := hread
    refine ⟨?_, rfl, rfl⟩
    rw [encode, ← hk, hheader, lenWord_of_field _ hrsvLen]
    exact hwords
  case genp =>
    obtain ⟨hk, hrsvLen, rfl⟩ := hread
    refine ⟨?_, rfl, rfl⟩
    rw [encode, ← hk, hheader, lenWord_of_field _ hrsvLen]
    exact hwords

/-- Settles O26: the words before the rest are a whole command, which is the encoding of what was read from it. -/
theorem encodeOfDecodeIsTheWords : Obligations.EncodeOfDecodeIsTheWords := by
  unfold Obligations.EncodeOfDecodeIsTheWords
  intro nctx ws i rest hdec
  obtain ⟨cmd, rfl, hlen, hread⟩ := decode_command_inv hdec
  obtain ⟨hcmd, hwf, hcore⟩ := encode_of_readCommand hlen hread
  exact ⟨by rw [hcmd], hwf, hcore⟩

/-- Settles O27: the nine commands and the six headers are evaluated. -/
theorem workedEncodingsDecode : Obligations.WorkedEncodingsDecode := by
  unfold Obligations.WorkedEncodingsDecode
  decide

end Sys2Proof

/-! PROOFS. The step on numbers: the multiplier's limbs, exact sums and the narrowing of the registers (41_step.md rules
R131, R132, R134; 10_state.md rules R27, R30). -/

namespace Sys2Proof.Machine

/-! ### The multiplier -/

/-- Settles O3: schoolbook multiplication; the product of the high halves and the high half of the middle products have
weight `2^64`. -/
theorem multiplierHasItsLimbForm : Obligations.MultiplierHasItsLimbForm := by
  unfold Obligations.MultiplierHasItsLimbForm
  intro a x aH aL xH xL
  have hmul : (mul64 a x).toNat = a.toNat * x.toNat % 2 ^ 64 := BitVec.toNat_mul a x
  have hlimbs : a.toNat * x.toNat = aL * xL + (aH * xL + aL * xH) * 2 ^ 32 + aH * xH * 2 ^ 64 :=
    calc a.toNat * x.toNat
      _ = (2 ^ 32 * aH + aL) * (2 ^ 32 * xH + xL) := by rw [Nat.div_add_mod, Nat.div_add_mod]
      _ = _ := by ring
  rw [hmul, hlimbs]
  refine ⟨by omega, fun hah hxh => ?_⟩
  have hle : aL * xL ≤ (2 ^ 32 - 1) * (2 ^ 32 - 1) := Nat.mul_le_mul (by omega) (by omega)
  rw [hah, hxh]
  omega

/-! ### Exact sums and the bounds of the new words -/

/-- The largest product and sum of the canonical domain (rules R131, R132). -/
theorem product_sum_le {a x c : Nat} (ha : a < 2 ^ 32) (hx : x < 2 ^ 32) (hc : c < 2 ^ 32) :
    a * x + c ≤ 2 ^ 64 - 2 ^ 32 := by
  have hle : a * x ≤ (2 ^ 32 - 1) * (2 ^ 32 - 1) := Nat.mul_le_mul (by omega) (by omega)
  omega

/-- Below `2^32` the sum does not wrap (rule R131). -/
theorem stepSum_exact {r : Regs} (ha : r.a.toNat < 2 ^ 32) (hx : r.x.toNat < 2 ^ 32) (hc : r.c.toNat < 2 ^ 32) :
    (stepSum r).toNat = r.a.toNat * r.x.toNat + r.c.toNat := by
  have hle := product_sum_le ha hx hc
  rw [stepSum_toNat]
  omega

/-- The division behind rules R132 and R187: a sum `a * x + c` with `x < 2^32` and `c < a` has a high half below `a`. -/
theorem mul_add_div_lt {a x c : Nat} (hx : x < 2 ^ 32) (hc : c < a) : (a * x + c) / 2 ^ 32 < a := by
  rw [Nat.div_lt_iff_lt_mul (by decide)]
  calc a * x + c < a * x + a := by omega
    _ = a * (x + 1) := by ring
    _ ≤ a * 2 ^ 32 := Nat.mul_le_mul_left a hx

/-- In the canonical domain the new carry stays below the multiplier (rules R132, R187). -/
theorem stepFn_c_lt_a {r : Regs} (ha : r.a.toNat < 2 ^ 32) (hx : r.x.toNat < 2 ^ 32) (hc : r.c.toNat < r.a.toNat) :
    (stepFn r).1.c.toNat < r.a.toNat := by
  rw [stepFn_c, carryWord_toNat, stepSum_exact ha hx (hc.trans ha)]
  exact mul_add_div_lt hx hc

/-- Settles O5: the halves of any sum are below `2^32`, and the other bounds are those of the canonical domain. -/
theorem stepWordsAreBounded : Obligations.StepWordsAreBounded := by
  unfold Obligations.StepWordsAreBounded
  refine ⟨fun r => ?_, fun r ha hx hc => ?_, fun r ha hx hc => ?_, fun y z => ?_⟩
  · have hz := lowWord_lt (stepSum r)
    have hc := carryWord_lt (stepSum r)
    rw [stepFn_z, stepFn_c]
    omega
  · have hlt := stepFn_c_lt_a ha hx hc
    omega
  · have hle := product_sum_le ha hx hc
    rw [stepSum_exact ha hx hc]
    omega
  · show add64 (mul64 0xFFFFFFFF 0xFFFFFFFF) 0xFFFFFFFF = 0xFFFFFFFF00000000
    decide

/-! ### The registers after `n` steps -/

theorem advanceN_succ (n : Nat) (r : Regs) : advanceN (n + 1) r = (stepFn (advanceN n r)).1 := by
  induction n generalizing r with
  | zero => rfl
  | succ n ih => exact ih (stepFn r).1

/-- Each output is the conversion of the `Z` that its step leaves (rules R23, R30). -/
theorem streamOut_eq_f64bits_z (r : Regs) (j : Nat) : streamOut r j = f64bits (advanceN (j + 1) r).z := by
  rw [streamOut, stepFn_out, advanceN_succ, stepFn_z]

/-- What one step keeps holds after any number of steps. -/
theorem advanceN_induction {P : Regs → Prop} (hstep : ∀ r, P r → P (stepFn r).1) {r : Regs} (hr : P r) (n : Nat) :
    P (advanceN n r) := by
  induction n generalizing r with
  | zero => exact hr
  | succ n ih => exact ih (hstep r hr)

@[simp] theorem advanceN_a (n : Nat) (r : Regs) : (advanceN n r).a = r.a :=
  advanceN_induction (P := fun q => q.a = r.a) (fun _ h => h) rfl n

theorem advanceN_z_lt {n : Nat} (hn : 1 ≤ n) (r : Regs) : (advanceN n r).z.toNat < 2 ^ 32 := by
  obtain ⟨m, rfl⟩ := Nat.exists_eq_add_of_le' hn
  rw [advanceN_succ]
  exact lowWord_lt _

theorem advanceN_c_lt {n : Nat} (hn : 1 ≤ n) (r : Regs) : (advanceN n r).c.toNat < 2 ^ 32 := by
  obtain ⟨m, rfl⟩ := Nat.exists_eq_add_of_le' hn
  rw [advanceN_succ]
  exact carryWord_lt _

/-- `Y` is the `Z` of one step before (rule R30). -/
theorem advanceN_y (n : Nat) (r : Regs) : (advanceN (n + 1) r).y = (advanceN n r).z := by
  rw [advanceN_succ, stepFn_y]

/-- `X` is the `Z` of two steps before (rule R30). -/
theorem advanceN_x (n : Nat) (r : Regs) : (advanceN (n + 2) r).x = (advanceN n r).z := by
  rw [advanceN_succ, stepFn_x, advanceN_y]

theorem advanceN_x_lt {n : Nat} (hn : 3 ≤ n) (r : Regs) : (advanceN n r).x.toNat < 2 ^ 32 := by
  obtain ⟨m, rfl⟩ := Nat.exists_eq_add_of_le' hn
  rw [advanceN_x]
  exact advanceN_z_lt (by omega) r

/-- All five words are below `2^32` (rule R27). -/
def Regs.Narrow (r : Regs) : Prop :=
  r.x.toNat < 2 ^ 32 ∧ r.y.toNat < 2 ^ 32 ∧ r.z.toNat < 2 ^ 32 ∧ r.c.toNat < 2 ^ 32 ∧ r.a.toNat < 2 ^ 32

theorem Regs.Narrow.step {r : Regs} (h : r.Narrow) : (stepFn r).1.Narrow := by
  obtain ⟨-, hy, hz, -, ha⟩ := h
  exact ⟨hy, hz, lowWord_lt _, carryWord_lt _, ha⟩

theorem seedword_lt (sd : Pattern) : (seedword sd).toNat < 2 ^ 32 := by
  obtain ⟨-, -, hle⟩ := seedwordSubstitutesZeroAndZeroExtends sd
  omega

/-- The default instance is narrow from the first word on (rule R27). -/
theorem narrow_defaults (sd : Pattern) (n : Nat) :
    (advanceN n ⟨seedword sd, 362436069, 77465321, 13579, 916905990⟩).Narrow :=
  advanceN_induction (fun _ => Regs.Narrow.step)
    ⟨seedword_lt sd, by simp, by simp, by simp, by simp⟩ n

/-- Settles O4: sums of narrow words are exact; after three steps `X` and `C` are narrow, and the default words always
are. -/
theorem canonicalDomainNeverWraps : Obligations.CanonicalDomainNeverWraps := by
  unfold Obligations.CanonicalDomainNeverWraps
  refine ⟨fun r ha hx hc => ?_, fun r n hn ha => ?_, fun sd n => ?_⟩
  · have hsum := product_sum_le ha hx hc
    have hmul : (mul64 r.a r.x).toNat = r.a.toNat * r.x.toNat % 2 ^ 64 := BitVec.toNat_mul r.a r.x
    exact ⟨by rw [hmul]; omega, stepSum_exact ha hx hc, hsum⟩
  · have hexact := stepSum_exact (r := advanceN n r) (by rwa [advanceN_a]) (advanceN_x_lt hn r)
      (advanceN_c_lt (by omega) r)
    rwa [advanceN_a] at hexact
  · obtain ⟨hx, -, -, hc, ha⟩ := narrow_defaults sd n
    have hexact := stepSum_exact ha hx hc
    rwa [advanceN_a] at hexact

/-- Settles O46: each step narrows `Z` and `C` and shifts `Z` to `Y` and on to `X`. -/
theorem stepsNarrowTheRegisters : Obligations.StepsNarrowTheRegisters := by
  unfold Obligations.StepsNarrowTheRegisters
  refine ⟨fun r n => ⟨advanceN_a n r, fun hn => ⟨advanceN_z_lt hn r, advanceN_c_lt hn r⟩, fun hn => ?_,
    fun hn => advanceN_x_lt hn r⟩, narrow_defaults⟩
  obtain ⟨m, rfl⟩ := Nat.exists_eq_add_of_le' hn
  rw [advanceN_y]
  exact advanceN_z_lt (by omega) r

/-- Settles O47: the words shift unchanged, and the next sum is made of the oldest of them. -/
theorem wordsAreTheLastThreeOutputs : Obligations.WordsAreTheLastThreeOutputs := by
  unfold Obligations.WordsAreTheLastThreeOutputs
  intro r n hn o
  obtain ⟨m, rfl⟩ := Nat.exists_eq_add_of_le' hn
  refine ⟨fun j hj => ?_, advanceN_y _ r, advanceN_x _ r, ?_⟩
  · obtain ⟨i, rfl⟩ := Nat.exists_eq_add_of_le' hj
    exact streamOut_eq_f64bits_z r i
  · show (advanceN (m + 3 + 1) r).z.toNat = (r.a.toNat * (advanceN (m + 1) r).z.toNat + _) % 2 ^ 32
    rw [advanceN_succ, stepFn_z, lowWord_toNat, stepSum_toNat, advanceN_a, advanceN_x]
    omega

end Sys2Proof.Machine

/-! PROOFS. The canonical states of one multiplier: the carry, the permutation, the fixed points (45_properties.md rules
R187 to R189). -/

namespace Sys2Proof.Machine

/-! ### Canonical steps -/

/-- A canonical sum is exact (rule R131). -/
theorem Regs.Canonical.stepSum_toNat {r : Regs} (h : r.Canonical) :
    (stepSum r).toNat = r.a.toNat * r.x.toNat + r.c.toNat := by
  obtain ⟨-, ha, hx, -, -, hc⟩ := h
  exact stepSum_exact ha hx (hc.trans ha)

theorem Regs.Canonical.step {r : Regs} (h : r.Canonical) : (stepFn r).1.Canonical := by
  obtain ⟨ha1, ha, hx, hy, hz, hc⟩ := h
  exact ⟨ha1, ha, hy, hz, lowWord_lt _, stepFn_c_lt_a ha hx hc⟩

theorem Regs.Canonical.advance {r : Regs} (h : r.Canonical) (n : Nat) : (advanceN n r).Canonical :=
  advanceN_induction (fun _ => Regs.Canonical.step) h n

/-- The new `C` and `Z` are the two halves of the sum (rules R124, R131). -/
theorem Regs.Canonical.halves {r : Regs} (h : r.Canonical) :
    (stepFn r).1.c.toNat * 2 ^ 32 + (stepFn r).1.z.toNat = r.a.toNat * r.x.toNat + r.c.toNat := by
  rw [stepFn_c, stepFn_z, carryWord_toNat, lowWord_toNat, ← h.stepSum_toNat]
  omega

/-- Canonical parameters give a canonical instance, as every seed is below `2^32` (rules R101, R187). -/
theorem canonical_fresh (sd : Pattern) {a c x1 x2 : Word} (ha : a.toNat < 2 ^ 32) (hx1 : x1.toNat < 2 ^ 32)
    (hx2 : x2.toNat < 2 ^ 32) (hc : c.toNat < a.toNat) : Regs.Canonical ⟨seedword sd, x1, x2, c, a⟩ :=
  ⟨by show 1 ≤ a.toNat; omega, ha, seedword_lt sd, hx1, hx2, hc⟩

/-- Settles O48: STEP and NEXT take the step function's registers, which keeps the canonical states; a wide multiplier
is above every carry; the spec's example is evaluated. -/
theorem carryStaysBelowTheMultiplier : Obligations.CarryStaysBelowTheMultiplier := by
  unfold Obligations.CarryStaysBelowTheMultiplier
  refine ⟨fun s k r hctx hr => ?_, fun sd a c x1 x2 n ha hx1 hx2 hc => ?_, fun r ha => ?_, by decide⟩
  · have hk : k.toNat < s.ctxs.length := (List.getElem?_eq_some_iff.mp hctx).1
    refine ⟨s.advance k, (stepFn r).1, exec_step k s, exec_next k s, ?_, hr.step, stepFn_a r⟩
    rw [State.advance_of_valid hctx]
    exact List.getElem?_set_self hk
  · exact (canonical_fresh sd ha hx1 hx2 hc).advance n
  · have hlt := carryWord_lt (stepSum r)
    rw [stepFn_c]
    omega

/-! ### The permutation -/

theorem Regs.ext_toNat {r q : Regs} (hx : r.x.toNat = q.x.toNat) (hy : r.y = q.y) (hz : r.z = q.z)
    (hc : r.c.toNat = q.c.toNat) (ha : r.a = q.a) : r = q := by
  obtain ⟨rx, ry, rz, rc, ra⟩ := r
  obtain ⟨qx, qy, qz, qc, qa⟩ := q
  rw [Regs.mk.injEq]
  exact ⟨BitVec.eq_of_toNat_eq hx, hy, hz, BitVec.eq_of_toNat_eq hc, ha⟩

/-- The sum determines `X` and `C`: they are its quotient and its remainder by the multiplier (rule R188). -/
theorem Regs.Canonical.quotient_remainder {r : Regs} (h : r.Canonical) :
    (r.a.toNat * r.x.toNat + r.c.toNat) / r.a.toNat = r.x.toNat ∧
    (r.a.toNat * r.x.toNat + r.c.toNat) % r.a.toNat = r.c.toNat := by
  obtain ⟨ha1, -, -, -, -, hc⟩ := h
  rw [Nat.mul_add_div ha1, Nat.div_eq_of_lt hc, Nat.mul_add_mod, Nat.mod_eq_of_lt hc]
  exact ⟨rfl, rfl⟩

theorem Regs.Canonical.step_injective {r q : Regs} (hr : r.Canonical) (hq : q.Canonical)
    (h : (stepFn r).1 = (stepFn q).1) : r = q := by
  have ha : r.a = q.a := by simpa using congrArg Regs.a h
  have hsum : r.a.toNat * r.x.toNat + r.c.toNat = q.a.toNat * q.x.toNat + q.c.toNat := by
    rw [← hr.halves, ← hq.halves, h]
  obtain ⟨hrx, hrc⟩ := hr.quotient_remainder
  obtain ⟨hqx, hqc⟩ := hq.quotient_remainder
  refine Regs.ext_toNat ?_ (by simpa using congrArg Regs.x h) (by simpa using congrArg Regs.y h) ?_ ha
  · rw [← hrx, ← hqx, hsum, ha]
  · rw [← hrc, ← hqc, hsum, ha]

theorem exists_word {n : Nat} (hn : n < 2 ^ 64) : ∃ w : Word, w.toNat = n :=
  ⟨BitVec.ofNatLT n hn, BitVec.toNat_ofNatLT n hn⟩

/-- Every canonical state has a canonical predecessor, whose `X` and `C` are the quotient and the remainder of
`C * 2^32 + Z` by the multiplier (rule R188). -/
theorem Regs.Canonical.exists_pred {q : Regs} (h : q.Canonical) :
    ∃ r : Regs, r.Canonical ∧ r.a = q.a ∧ (stepFn r).1 = q := by
  obtain ⟨ha1, ha, hx, hy, hz, hc⟩ := h
  have hquot : (q.c.toNat * 2 ^ 32 + q.z.toNat) / q.a.toNat < 2 ^ 32 := by
    rw [Nat.div_lt_iff_lt_mul ha1]
    omega
  have hrem : (q.c.toNat * 2 ^ 32 + q.z.toNat) % q.a.toNat < q.a.toNat := Nat.mod_lt _ ha1
  obtain ⟨x, hpx⟩ := exists_word (hquot.trans (by decide))
  obtain ⟨c, hpc⟩ := exists_word ((hrem.trans ha).trans (by decide))
  have hcan : Regs.Canonical ⟨x, q.x, q.y, c, q.a⟩ := ⟨ha1, ha, by rwa [hpx], hx, hy, by rwa [hpc]⟩
  have hhalves : (stepFn ⟨x, q.x, q.y, c, q.a⟩).1.c.toNat * 2 ^ 32 + (stepFn ⟨x, q.x, q.y, c, q.a⟩).1.z.toNat =
      q.c.toNat * 2 ^ 32 + q.z.toNat := by
    rw [hcan.halves, hpx, hpc, Nat.div_add_mod]
  have hlow : (stepFn ⟨x, q.x, q.y, c, q.a⟩).1.z.toNat < 2 ^ 32 := lowWord_lt _
  exact ⟨_, hcan, rfl, Regs.ext_toNat rfl rfl (BitVec.eq_of_toNat_eq (by omega)) (by omega) rfl⟩

/-- The step on the canonical states, a finite set. -/
def canonicalStep (r : {r : Regs // r.Canonical}) : {r : Regs // r.Canonical} := ⟨(stepFn r.1).1, r.2.step⟩

theorem canonicalStep_iterate (n : Nat) (r : {r : Regs // r.Canonical}) :
    (canonicalStep^[n] r).1 = advanceN n r.1 := by
  induction n generalizing r with
  | zero => rfl
  | succ n ih => exact ih (canonicalStep r)

theorem canonicalStep_injective : Function.Injective canonicalStep := fun r q h =>
  Subtype.ext (r.2.step_injective q.2 (congrArg Subtype.val h))

theorem finite_regs : Finite Regs :=
  Finite.of_injective (fun r : Regs => (r.x, r.y, r.z, r.c, r.a)) fun r q h => by
    cases r; cases q; simpa using h

/-- An injective map of a finite set has only periodic points (rule R188). -/
theorem Regs.Canonical.periodic {r : Regs} (h : r.Canonical) : ∃ p, 1 ≤ p ∧ advanceN p r = r := by
  have := finite_regs
  obtain ⟨p, hp, hper⟩ := canonicalStep_injective.mem_periodicPts ⟨r, h⟩
  refine ⟨p, hp, ?_⟩
  rw [← canonicalStep_iterate p ⟨r, h⟩]
  exact congrArg Subtype.val hper

/-- A zero sum with a multiplier that is not zero has zero `X` and `C` (rule R188). -/
theorem Regs.Canonical.allZero_of_step {r : Regs} (h : r.Canonical) (hzero : (stepFn r).1.AllZero) : r.AllZero := by
  obtain ⟨hy, hz, hlow, hcarry⟩ := hzero
  have hsum : 0 = r.a.toNat * r.x.toNat + r.c.toNat := by rw [← h.halves, hlow, hcarry]; rfl
  have hx : r.x.toNat = 0 := by
    obtain ⟨ha1, -⟩ := h
    have hprod : r.a.toNat * r.x.toNat = 0 := by omega
    exact (Nat.mul_eq_zero.mp hprod).resolve_left (by omega)
  exact ⟨BitVec.eq_of_toNat_eq hx, hy, hz, BitVec.eq_of_toNat_eq (show r.c.toNat = 0 by omega)⟩

theorem Regs.Canonical.allZero_of_advanceN {r : Regs} (h : r.Canonical) (n : Nat) (hzero : (advanceN n r).AllZero) :
    r.AllZero := by
  induction n generalizing r with
  | zero => exact hzero
  | succ n ih => exact h.allZero_of_step (ih h.step hzero)

/-- Whatever the multiplier, the all-zero state steps to itself (rule R188). -/
theorem Regs.AllZero.step {r : Regs} (h : r.AllZero) : (stepFn r).1.AllZero := by
  obtain ⟨hx, hy, hz, hc⟩ := h
  have hsum : stepSum r = 0 := by simp [stepSum, add64, mul64, hx, hc]
  exact ⟨hy, hz, by rw [stepFn_z, hsum]; rfl, by rw [stepFn_c, hsum]; rfl⟩

/-- The first step of the spec's example outside the canonical domain wraps to zero (V24). -/
theorem allZero_step_of_wrap : (stepFn ⟨seedword 2, 0, 0, 0, 0x8000000000000000⟩).1.AllZero := by
  unfold Regs.AllZero
  decide

theorem allZero_advanceN_of_step {r : Regs} (h : (stepFn r).1.AllZero) (n : Nat) : (advanceN (n + 1) r).AllZero :=
  advanceN_induction (fun _ => Regs.AllZero.step) h n

/-- Settles O49: `X` and `C` are the quotient and the remainder of the sum, which gives the inverse of the step; the
canonical states are finitely many; zero halves come from a zero sum. -/
theorem canonicalStepIsAPermutation : Obligations.CanonicalStepIsAPermutation := by
  unfold Obligations.CanonicalStepIsAPermutation
  refine ⟨fun r q hr hq _ h => hr.step_injective hq h, fun q hq => hq.exists_pred, fun r hr => hr.periodic,
    fun r n hr => hr.allZero_of_advanceN n, fun n hn => ?_, fun j => ?_⟩
  · obtain ⟨m, rfl⟩ := Nat.exists_eq_add_of_le' hn
    exact allZero_advanceN_of_step allZero_step_of_wrap m
  · obtain ⟨-, -, hz, -⟩ := allZero_advanceN_of_step allZero_step_of_wrap j
    rw [streamOut_eq_f64bits_z, hz]
    rfl

/-! ### The fixed points -/

/-- The equation of a fixed point (rule R189). -/
theorem Regs.Canonical.fixed_iff {r : Regs} (h : r.Canonical) :
    (stepFn r).1 = r ↔ r.y = r.x ∧ r.z = r.x ∧ (r.a.toNat - 1) * r.x.toNat = r.c.toNat * (2 ^ 32 - 1) := by
  have hhalves := h.halves
  obtain ⟨ha1, -, hx, -, -, -⟩ := h
  have hsplit : r.a.toNat * r.x.toNat = (r.a.toNat - 1) * r.x.toNat + r.x.toNat := by
    rw [← Nat.succ_mul, Nat.succ_eq_add_one, Nat.sub_add_cancel ha1]
  constructor
  · intro hfix
    have hyx : r.y = r.x := congrArg Regs.x hfix
    have hzx : r.z = r.x := (congrArg Regs.y hfix).trans hyx
    rw [hfix, hzx] at hhalves
    exact ⟨hyx, hzx, by omega⟩
  · rintro ⟨hyx, hzx, heq⟩
    have hlow : (stepFn r).1.z.toNat < 2 ^ 32 := lowWord_lt _
    have hz : (stepFn r).1.z.toNat = r.x.toNat := by omega
    exact Regs.ext_toNat (congrArg _ hyx) (hzx.trans hyx.symm) ((BitVec.eq_of_toNat_eq hz).trans hzx.symm)
      (by omega) rfl

/-- The solutions of `m * x = c * n` in the range `x <= n`: the multiples of the reduced pair. -/
theorem mul_eq_mul_iff_reduced {m n x c : Nat} (hn : 0 < n) (hx : x ≤ n) :
    m * x = c * n ↔ ∃ k, k ≤ Nat.gcd m n ∧ x = k * (n / Nat.gcd m n) ∧ c = k * (m / Nat.gcd m n) := by
  have hg : 0 < Nat.gcd m n := Nat.gcd_pos_of_pos_right m hn
  obtain ⟨m', n', hcop, hm, hn'⟩ := Nat.exists_coprime m n
  generalize Nat.gcd m n = g at *
  subst hm hn'
  have hn'0 : 0 < n' := Nat.pos_of_mul_pos_right hn
  rw [Nat.mul_div_cancel _ hg, Nat.mul_div_cancel _ hg]
  constructor
  · intro h
    have hred : m' * x = c * n' := Nat.eq_of_mul_eq_mul_right hg (by linarith)
    obtain ⟨k, rfl⟩ : n' ∣ x := hcop.symm.dvd_of_dvd_mul_left ⟨c, by rw [hred, Nat.mul_comm]⟩
    refine ⟨k, Nat.le_of_mul_le_mul_left hx hn'0, Nat.mul_comm _ _, ?_⟩
    exact Nat.eq_of_mul_eq_mul_right hn'0 (by linarith)
  · rintro ⟨k, -, rfl, rfl⟩
    ring

/-- The upper fixed point of a multiplier (rule R189). -/
theorem upper_fixed {a : Word} (ha2 : 2 ≤ a.toNat) (ha : a.toNat < 2 ^ 32) (n : Nat) :
    advanceN n ⟨seedword 0xFFFFFFFF, 0xFFFFFFFF, 0xFFFFFFFF, a - 1, a⟩ =
      ⟨seedword 0xFFFFFFFF, 0xFFFFFFFF, 0xFFFFFFFF, a - 1, a⟩ := by
  have hc : (a - 1).toNat = a.toNat - 1 := BitVec.toNat_sub_of_le (by rw [BitVec.le_def]; simp; omega)
  have hcan : Regs.Canonical ⟨seedword 0xFFFFFFFF, 0xFFFFFFFF, 0xFFFFFFFF, a - 1, a⟩ :=
    canonical_fresh _ ha (by decide) (by decide) (by omega)
  have hfix := hcan.fixed_iff.mpr ⟨rfl, rfl, by rw [hc]; rfl⟩
  exact advanceN_induction (P := fun q => q = _) (fun q hq => by rw [hq, hfix]) rfl n

/-- Settles O50: a fixed point solves `(A - 1) * X = C * (2^32 - 1)`, whose solutions are the multiples of the reduced
pair; the upper one solves it for every multiplier. -/
theorem fixedPointsOfTheCanonicalStep : Obligations.FixedPointsOfTheCanonicalStep := by
  unfold Obligations.FixedPointsOfTheCanonicalStep
  refine ⟨fun r hr ha => ?_, fun r hr ha => ?_, by decide, fun a j ha2 ha => ?_⟩
  · have hx : r.x.toNat ≤ 2 ^ 32 - 1 := by obtain ⟨-, -, hx, -⟩ := hr; omega
    rw [hr.fixed_iff, mul_eq_mul_iff_reduced (by decide) hx]
    constructor
    · rintro ⟨hyx, hzx, m, hm, hxm, hcm⟩
      exact ⟨m, hm, hxm, hyx, hzx, hcm⟩
    · rintro ⟨m, hm, hxm, hyx, hzx, hcm⟩
      exact ⟨hyx, hzx, m, hm, hxm, hcm⟩
  · have hc : r.c = 0 := by
      obtain ⟨-, -, -, -, -, hlt⟩ := hr
      exact BitVec.eq_of_toNat_eq (show r.c.toNat = 0 by omega)
    simp [hr.fixed_iff, ha, hc]
  · rw [streamOut_eq_f64bits_z, upper_fixed ha2 ha]
    show f64bits 0xFFFFFFFF = 0x3FEFFFFFFFE00000
    decide

end Sys2Proof.Machine

/-! PROOFS. The output words: the binary64 pattern of a 32-bit integer, its range and the way back (41_step.md rules
R127, R128). -/

namespace Sys2Proof.Machine

theorem f64bits_zero : f64bits 0 = 0 := rfl

/-- A 64-bit word put together from its exponent field and its significand field, as a number. -/
theorem shift_or_toNat {e m : Word} (he : e.toNat < 2 ^ 12) (hm : m.toNat < 2 ^ 52) :
    (e <<< 52 ||| m).toNat = e.toNat * 2 ^ 52 + m.toNat := by
  rw [BitVec.toNat_or, BitVec.toNat_shiftLeft, Nat.shiftLeft_eq, Nat.mod_eq_of_lt (by omega), Nat.mul_comm,
    Nat.two_pow_add_eq_or_of_lt hm]

/-- A number with its top bit at `k`, less that bit, fits the significand field after the shift (rule R127). -/
theorem significand_lt {n k : Nat} (hk : k ≤ 52) (hlt : n < 2 ^ (k + 1)) : (n - 2 ^ k) * 2 ^ (52 - k) < 2 ^ 52 := by
  have hpow : 2 ^ k * 2 ^ (52 - k) = 2 ^ 52 := by rw [← Nat.pow_add, Nat.add_sub_cancel' hk]
  rw [← hpow]
  refine Nat.mul_lt_mul_of_pos_right ?_ (Nat.two_pow_pos _)
  omega

theorem top_bit_lt {z : Word} {k : Nat} (hz : z.toNat < 2 ^ 32) (hle : 2 ^ k ≤ z.toNat) : k < 32 :=
  (Nat.pow_lt_pow_iff_right (by decide)).mp (hle.trans_lt hz)

/-- The pattern of a word with its top bit at `k` (rule R127). -/
theorem f64bits_toNat {z : Word} {k : Nat} (hz : z.toNat < 2 ^ 32) (hle : 2 ^ k ≤ z.toNat)
    (hlt : z.toNat < 2 ^ (k + 1)) :
    (f64bits z).toNat = (991 + k) * 2 ^ 52 + (z.toNat - 2 ^ k) * 2 ^ (52 - k) := by
  have hk := top_bit_lt hz hle
  have hpos := Nat.two_pow_pos k
  have hne : z ≠ 0 := by rintro rfl; exact absurd hle (Nat.not_le.mpr hpos)
  have hlog : z.toNat.log2 = k := (Nat.log2_eq_iff (by omega)).mpr ⟨hle, hlt⟩
  have hsig := significand_lt (by omega) hlt
  have hexp : (BitVec.ofNat 64 (991 + k)).toNat = 991 + k := by rw [BitVec.toNat_ofNat, Nat.mod_eq_of_lt (by omega)]
  have hbit : (BitVec.ofNat 64 (2 ^ k)).toNat = 2 ^ k := by rw [BitVec.toNat_ofNat, Nat.mod_eq_of_lt (by omega)]
  have hman : ((z - BitVec.ofNat 64 (2 ^ k)) <<< (52 - k)).toNat = (z.toNat - 2 ^ k) * 2 ^ (52 - k) := by
    rw [BitVec.toNat_shiftLeft, BitVec.toNat_sub_of_le (by rwa [BitVec.le_def, hbit]), hbit, Nat.shiftLeft_eq,
      Nat.mod_eq_of_lt (hsig.trans (by decide))]
  rw [f64bits, if_neg hne]
  simp only [hlog]
  rw [shift_or_toNat (by omega) (by omega), hexp, hman]

/-- Where the top bit of a 32-bit integer that is not zero stands. -/
theorem exists_top_bit {z : Word} (hz : z.toNat < 2 ^ 32) (hne : z ≠ 0) :
    ∃ k, k < 32 ∧ 2 ^ k ≤ z.toNat ∧ z.toNat < 2 ^ (k + 1) := by
  have hpos : z.toNat ≠ 0 := fun h => hne (BitVec.eq_of_toNat_eq h)
  exact ⟨z.toNat.log2, (Nat.log2_lt hpos).mpr hz, Nat.log2_self_le hpos, Nat.lt_log2_self⟩

/-- The two fields of the pattern as numbers: the exponent is `991 + k`, and the significand with its leading one is
`z * 2^(52-k)` (rules R127, R128). -/
theorem f64bits_fields {z : Word} {k : Nat} (hz : z.toNat < 2 ^ 32) (hle : 2 ^ k ≤ z.toNat)
    (hlt : z.toNat < 2 ^ (k + 1)) :
    (f64bits z).toNat / 2 ^ 52 = 991 + k ∧ 2 ^ 52 + (f64bits z).toNat % 2 ^ 52 = z.toNat * 2 ^ (52 - k) := by
  have hk := top_bit_lt hz hle
  have hsig := significand_lt (by omega) hlt
  have hpow : 2 ^ k * 2 ^ (52 - k) = 2 ^ 52 := by rw [← Nat.pow_add, Nat.add_sub_cancel' (by omega)]
  have hsplit : z.toNat * 2 ^ (52 - k) = 2 ^ 52 + (z.toNat - 2 ^ k) * 2 ^ (52 - k) := by
    rw [← hpow, ← Nat.add_mul, Nat.add_sub_cancel' hle]
  have hbits := f64bits_toNat hz hle hlt
  omega

/-- The low 21 bits are zero: 32 significant bits fit the pattern exactly (rule R127). -/
theorem f64bits_low_bits {z : Word} (hz : z.toNat < 2 ^ 32) : (f64bits z).toNat % 2 ^ 21 = 0 := by
  by_cases hne : z = 0
  · rw [hne, f64bits_zero]
    rfl
  · obtain ⟨k, hk, hle, hlt⟩ := exists_top_bit hz hne
    have hshift : 2 ^ (52 - k) = 2 ^ (31 - k) * 2 ^ 21 := by rw [← Nat.pow_add]; congr 1; omega
    rw [f64bits_toNat hz hle hlt, hshift, ← Nat.mul_assoc]
    omega

/-- Settles O6: the pattern's fields, whose significand is `z` shifted to its 53 bits. -/
theorem f64bitsIsTheExactBinary64Pattern : Obligations.F64bitsIsTheExactBinary64Pattern := by
  unfold Obligations.F64bitsIsTheExactBinary64Pattern
  refine ⟨f64bits_zero, fun z k hz hle hlt => ⟨f64bits_toNat hz hle hlt, f64bits_low_bits hz, ?_⟩⟩
  have hk := top_bit_lt hz hle
  have hshift : 2 ^ (84 - k) = 2 ^ (52 - k) * 2 ^ 32 := by rw [← Nat.pow_add]; congr 1; omega
  rw [(f64bits_fields hz hle hlt).2, hshift, Nat.mul_assoc]

/-- The range of the words of integers that are not zero (rule R128): the exponent is 991 to 1022, and the significand
field, a multiple of `2^21`, is at most `2^52 - 2^21`. -/
theorem f64bits_range {z : Word} (hz : z.toNat < 2 ^ 32) (hne : z ≠ 0) :
    0x3DF0000000000000 ≤ (f64bits z).toNat ∧ (f64bits z).toNat ≤ 0x3FEFFFFFFFE00000 := by
  obtain ⟨k, hk, hle, hlt⟩ := exists_top_bit hz hne
  have hexp := (f64bits_fields hz hle hlt).1
  have hlow := f64bits_low_bits hz
  omega

theorem f64bits_le {z : Word} (hz : z.toNat < 2 ^ 32) : (f64bits z).toNat ≤ 0x3FEFFFFFFFE00000 := by
  by_cases hne : z = 0
  · rw [hne, f64bits_zero]
    decide
  · exact (f64bits_range hz hne).2

/-- The way back (rule R128): the exponent says how far to shift the significand right. -/
theorem f64bits_inverse {z : Word} (hz : z.toNat < 2 ^ 32) (hne : z ≠ 0) :
    (2 ^ 52 + (f64bits z).toNat % 2 ^ 52) / 2 ^ (1043 - (f64bits z).toNat / 2 ^ 52) = z.toNat := by
  obtain ⟨k, hk, hle, hlt⟩ := exists_top_bit hz hne
  obtain ⟨hexp, hsig⟩ := f64bits_fields hz hle hlt
  have hshift : 1043 - (991 + k) = 52 - k := by omega
  rw [hexp, hsig, hshift, Nat.mul_div_cancel _ (Nat.two_pow_pos _)]

theorem f64bits_ne_zero {z : Word} (hz : z.toNat < 2 ^ 32) (hne : z ≠ 0) : f64bits z ≠ 0 := by
  intro hzero
  have hmin := (f64bits_range hz hne).1
  rw [hzero] at hmin
  exact absurd hmin (by decide)

theorem f64bits_injective {y z : Word} (hy : y.toNat < 2 ^ 32) (hz : z.toNat < 2 ^ 32)
    (h : f64bits y = f64bits z) : y = z := by
  by_cases hy0 : y = 0
  · by_contra hne
    exact f64bits_ne_zero hz (fun hz0 => hne (hy0.trans hz0.symm)) (by rw [← h, hy0, f64bits_zero])
  by_cases hz0 : z = 0
  · exact absurd (by rw [h, hz0, f64bits_zero]) (f64bits_ne_zero hy hy0)
  · exact BitVec.eq_of_toNat_eq (by rw [← f64bits_inverse hy hy0, ← f64bits_inverse hz hz0, h])

/-- Settles O7: the range and the way back from the two fields, which make the conversion injective; the three printed
words are evaluated. -/
theorem f64bitsRangeAndInverse : Obligations.F64bitsRangeAndInverse := by
  unfold Obligations.F64bitsRangeAndInverse
  exact ⟨fun z hz => ⟨f64bits_le hz, fun hne => ⟨(f64bits_range hz hne).1, f64bits_inverse hz hne⟩⟩,
    fun y z => f64bits_injective, by decide, by decide, by decide⟩

end Sys2Proof.Machine

/-! PROOFS. The effect of a command as a function of the one context it names: what it writes there and what it answers
(10_state.md rules R28, R29; 20_memory.md rules R57, R59, R63). -/

namespace Sys2Proof.Machine

/-! ### Effects -/

/-- What a command does: the context it writes, if any, and the words of its response. -/
structure Effect where
  write : Option Context
  words : List Word

/-- An error writes nothing (rule R205). -/
def Effect.error (e : ErrorKind) : Effect := ⟨none, [responseHeader e.code 0]⟩

/-- A construction (rules R104, R105). -/
def Effect.construct (sd : Pattern) (p : Params) : Effect := ⟨some (freshContext sd p), [responseHeader statusOk 0]⟩

/-- A step of an instance with words `r` (rule R129). -/
def Effect.advance (r : Regs) : Effect := ⟨some ⟨true, (stepFn r).1⟩, [responseHeader statusOk 1, (stepFn r).2]⟩

/-- A step of a context (rules R129, R203). -/
def Effect.advanceOf (c : Context) : Effect := if c.v then .advance c.regs else .error .notInitialised

/-- Bulk samples (rules R152, R156). -/
def Effect.bulk (len sd : Pattern) (p : Params) : Effect :=
  if len.toNat < 2 ^ 31 then ⟨none, responseHeader statusOk len.toNat :: genFn len.toNat (freshRegs sd p)⟩
  else .error .invalidArgument

/-- An effect behind the parameter check (rules R102, R201). -/
def Effect.checked (a c : Word) (e : Effect) : Effect := if c.toNat < a.toNat then e else .error .invalidParameter

/-- An effect on a context that may be absent (log 7). -/
def Effect.on (oc : Option Context) (f : Context → Effect) : Effect := oc.elim (.error .illegalCommand) f

/-- The effect of a command on the context it names (`none` where it names none, or one that is absent). -/
def effect : Instr → Option Context → Effect
  | .init _ sd, oc => .on oc fun _ => .construct sd Config.defaults
  | .initp _ sd a c x1 x2, oc => .on oc fun _ => .checked a c (.construct sd ⟨a, c, x1, x2⟩)
  | .step _, oc => .on oc .advanceOf
  | .gen len sd, _ => .bulk len sd Config.defaults
  | .genp len sd a c x1 x2, _ => .checked a c (.bulk len sd ⟨a, c, x1, x2⟩)
  | .seq _ sd, oc => .on oc fun _ => .construct sd Config.defaults
  | .seqp _ sd a c x1 x2, oc => .on oc fun _ => .checked a c (.construct sd ⟨a, c, x1, x2⟩)
  | .next _, oc => .on oc .advanceOf

/-- What the context a command names holds in the register file `cs`. -/
def target (i : Instr) (cs : List Context) : Option Context := i.context.bind fun k => cs[k.toNat]?

/-- The register file after a write to the context a command names. -/
def writeBack (i : Instr) (w : Option Context) (cs : List Context) : List Context :=
  match i.context, w with
  | some k, some c => cs.set k.toNat c
  | _, _ => cs

/-- The register file after a command. -/
def ctxsAfter (i : Instr) (cs : List Context) : List Context := writeBack i (effect i (target i cs)).write cs

/-- The response to a command on the register file `cs`. -/
def responseOf (i : Instr) (cs : List Context) : List Word := (effect i (target i cs)).words

/-- The state with an effect `e` of command `i`: its write and its response, and nothing else (rule R57). -/
def State.apply (s : State) (i : Instr) (e : Effect) : State :=
  { s with ctxs := writeBack i e.write s.ctxs, rsps := s.rsps ++ e.words }

/-- The state after a command. -/
def State.after (s : State) (i : Instr) : State := s.apply i (effect i (target i s.ctxs))

@[simp] theorem State.after_ctxs (s : State) (i : Instr) : (s.after i).ctxs = ctxsAfter i s.ctxs := rfl
@[simp] theorem State.after_rsps (s : State) (i : Instr) : (s.after i).rsps = s.rsps ++ responseOf i s.ctxs := rfl
@[simp] theorem State.after_cmds (s : State) (i : Instr) : (s.after i).cmds = s.cmds := rfl
@[simp] theorem State.after_schedule (s : State) (i : Instr) : (s.after i).schedule = s.schedule := rfl

@[simp] theorem writeBack_none (i : Instr) (cs : List Context) : writeBack i none cs = cs := by
  cases h : i.context <;> simp [writeBack, h]

/-! ### The meanings as effects -/

theorem State.raise_eq_apply (s : State) (i : Instr) (e : ErrorKind) : s.raise e = s.apply i (.error e) := by
  simp [State.apply, Effect.error, State.raise, State.respond]

theorem State.construct_eq_apply {s : State} {i : Instr} {k : CtxNum} (hk : i.context = some k) (sd : Pattern)
    (p : Params) : s.construct k sd p = s.apply i (.construct sd p) := by
  simp [State.apply, Effect.construct, writeBack, hk, State.construct, State.respond, State.setCtx]

theorem State.checked_eq_apply {s t : State} {i : Instr} {p : Params} {e : Effect} (ht : t = s.apply i e) :
    (if paramOk p.a p.c then t else s.raise .invalidParameter) = s.apply i (.checked p.a p.c e) := by
  rw [Effect.checked, ht, s.raise_eq_apply i]
  simp only [paramOk_iff]
  split <;> rfl

theorem State.withCtx_eq_apply {s : State} {i : Instr} {k : CtxNum} {f : Context → State} {g : Context → Effect}
    (hfg : ∀ c, f c = s.apply i (g c)) : s.withCtx k f = s.apply i (.on s.ctxs[k.toNat]? g) := by
  rcases s.withCtx_cases k f with ⟨c, hctx, _, he⟩ | ⟨hctx, _, he⟩ <;> rw [he, hctx]
  · exact hfg c
  · exact s.raise_eq_apply i _

theorem State.advance_eq_apply {s : State} {i : Instr} {k : CtxNum} (hk : i.context = some k) :
    s.advance k = s.apply i (.on s.ctxs[k.toNat]? .advanceOf) := by
  refine State.withCtx_eq_apply fun c => ?_
  rw [Effect.advanceOf, s.raise_eq_apply i]
  split
  · simp [State.apply, Effect.advance, writeBack, hk, State.respond, State.setCtx]
  · rfl

theorem State.bulk_eq_apply (s : State) (i : Instr) (len sd : Pattern) (p : Params) :
    s.bulk len sd p = s.apply i (.bulk len sd p) := by
  rcases s.bulk_cases len sd p with ⟨hlen, he⟩ | ⟨hlen, he⟩ <;> rw [he, Effect.bulk]
  · rw [if_pos hlen]
    simp [State.apply, State.respond]
  · rw [if_neg (Nat.not_lt.mpr hlen)]
    exact s.raise_eq_apply i _

/-- Every command completes with its effect on the one context it names. -/
theorem exec_eq_after (i : Instr) (s : State) : exec i s = .next (s.after i) := by
  cases i with
  | init k sd => exact congrArg _ (State.withCtx_eq_apply fun _ => State.construct_eq_apply rfl sd _)
  | initp k sd a c x1 x2 =>
    exact congrArg _ (State.withCtx_eq_apply fun _ => State.checked_eq_apply (State.construct_eq_apply rfl sd _))
  | step k => exact congrArg _ (State.advance_eq_apply rfl)
  | gen len sd => exact congrArg _ (s.bulk_eq_apply _ len sd _)
  | genp len sd a c x1 x2 => exact congrArg _ (State.checked_eq_apply (s.bulk_eq_apply _ len sd _))
  | seq k sd => exact congrArg _ (State.withCtx_eq_apply fun _ => State.construct_eq_apply rfl sd _)
  | seqp k sd a c x1 x2 =>
    exact congrArg _ (State.withCtx_eq_apply fun _ => State.checked_eq_apply (State.construct_eq_apply rfl sd _))
  | next k => exact congrArg _ (State.advance_eq_apply rfl)

theorem eq_after_of_exec {i : Instr} {s t : State} (h : exec i s = .next t) : t = s.after i :=
  Host.Outcome.next.inj (h.symm.trans (exec_eq_after i s))

/-! ### What an effect can be -/

/-- What the effect of command `i` on what its context holds can be. -/
inductive EffectShape (i : Instr) (oc : Option Context) : Effect → Prop
  /-- an error -/
  | error (e : ErrorKind) : EffectShape i oc (.error e)
  /-- a construction, by a command that initialises the context it names -/
  | construct {k : CtxNum} {sd : Pattern} {p : Params} (hk : i.context = some k) (hinit : initialises k i = true)
      (hp : p.c.toNat < p.a.toNat) : EffectShape i oc (.construct sd p)
  /-- a step of the living instance in the context that the command pulls -/
  | advance {k : CtxNum} {r : Regs} (hk : i.context = some k) (hpull : pulls k i = true) (hoc : oc = some ⟨true, r⟩) :
      EffectShape i oc (.advance r)
  /-- bulk samples, for a command that names no context -/
  | samples {len sd : Pattern} {p : Params} (hk : i.context = none) (hlen : len.toNat < 2 ^ 31) :
      EffectShape i oc ⟨none, responseHeader statusOk len.toNat :: genFn len.toNat (freshRegs sd p)⟩

theorem EffectShape.on {i : Instr} {oc : Option Context} {f : Context → Effect}
    (h : ∀ c, oc = some c → EffectShape i oc (f c)) : EffectShape i oc (.on oc f) := by
  cases oc with
  | none => exact .error _
  | some c => exact h c rfl

theorem EffectShape.checked {i : Instr} {oc : Option Context} {a c : Word} {e : Effect}
    (h : c.toNat < a.toNat → EffectShape i oc e) : EffectShape i oc (.checked a c e) := by
  rw [Effect.checked]
  split
  case isTrue hp => exact h hp
  case isFalse => exact .error _

theorem EffectShape.advanceOf {i : Instr} {oc : Option Context} {k : CtxNum} {c : Context} (hk : i.context = some k)
    (hpull : pulls k i = true) (hoc : oc = some c) : EffectShape i oc (.advanceOf c) := by
  obtain ⟨v, r⟩ := c
  cases v with
  | true => exact .advance hk hpull hoc
  | false => exact .error _

theorem EffectShape.bulk {i : Instr} {oc : Option Context} {len sd : Pattern} {p : Params} (hk : i.context = none) :
    EffectShape i oc (.bulk len sd p) := by
  rw [Effect.bulk]
  split
  case isTrue hlen => exact .samples hk hlen
  case isFalse => exact .error _

theorem effect_shape (i : Instr) (oc : Option Context) : EffectShape i oc (effect i oc) := by
  cases i with
  | init k sd => exact .on fun _ _ => .construct rfl (by simp [initialises]) (by decide)
  | initp k sd a c x1 x2 => exact .on fun _ _ => .checked fun hp => .construct rfl (by simp [initialises, hp]) hp
  | step k => exact .on fun _ hoc => .advanceOf rfl (by simp [pulls]) hoc
  | gen len sd => exact .bulk rfl
  | genp len sd a c x1 x2 => exact .checked fun _ => .bulk rfl
  | seq k sd => exact .on fun _ _ => .construct rfl (by simp [initialises]) (by decide)
  | seqp k sd a c x1 x2 => exact .on fun _ _ => .checked fun hp => .construct rfl (by simp [initialises, hp]) hp
  | next k => exact .on fun _ hoc => .advanceOf rfl (by simp [pulls]) hoc

/-- Every response has a header. -/
theorem EffectShape.words_eq_cons {i : Instr} {oc : Option Context} {e : Effect} (h : EffectShape i oc e) :
    ∃ g data, e.words = g :: data := by
  cases h <;> exact ⟨_, _, rfl⟩

/-- Every data word is the conversion of a 32-bit integer (rules R124, R183). -/
theorem EffectShape.data_word {i : Instr} {oc : Option Context} {e : Effect} (h : EffectShape i oc e) :
    ∀ w ∈ e.words.tail, ∃ z : Word, z.toNat < 2 ^ 32 ∧ w = f64bits z := by
  intro w hw
  cases h with
  | error e => cases hw
  | construct hk hinit hp => cases hw
  | advance hk hpull hoc => exact ⟨_, lowWord_lt _, List.mem_singleton.mp hw⟩
  | samples hk hlen => exact genFn_mem _ _ w hw

/-- What a command that writes a context writes there (rules R104, R105, R129). -/
theorem EffectShape.of_write {i : Instr} {oc : Option Context} {e : Effect} {d : Context} (h : EffectShape i oc e)
    (hw : e.write = some d) :
    ∃ k, i.context = some k ∧
      ((initialises k i = true ∧ ∃ sd p, p.c.toNat < p.a.toNat ∧ d = freshContext sd p) ∨
        (pulls k i = true ∧ ∃ r, oc = some ⟨true, r⟩ ∧ d = ⟨true, (stepFn r).1⟩)) := by
  cases h with
  | error e => cases hw
  | construct hk hinit hp => cases hw; exact ⟨_, hk, .inl ⟨hinit, _, _, hp, rfl⟩⟩
  | advance hk hpull hoc => cases hw; exact ⟨_, hk, .inr ⟨hpull, _, hoc, rfl⟩⟩
  | samples hk hlen => cases hw

/-- A command that is not answered `OK` writes nothing (rule R208). -/
theorem EffectShape.write_eq_none {i : Instr} {oc : Option Context} {e : Effect} (h : EffectShape i oc e)
    (hno : answeredOk e.words = false) : e.write = none := by
  cases h with
  | error e => rfl
  | construct hk hinit hp => exact absurd hno (by simp [Effect.construct, answeredOk, statusOf, responseHeader_ok])
  | advance hk hpull hoc => exact absurd hno (by simp [Effect.advance, answeredOk, statusOf, responseHeader_ok])
  | samples hk hlen => rfl

/-- A command on an absent context is answered `IllegalCommand` (log 7). -/
theorem effect_absent {i : Instr} {k : CtxNum} (hk : i.context = some k) : effect i none = .error .illegalCommand := by
  cases i with
  | gen len sd => cases hk
  | genp len sd a c x1 x2 => cases hk
  | _ => rfl

/-- A command that pulls no sample does the same on every context (rules R107, R155). -/
theorem effect_eq_of_not_pulls {i : Instr} {k : CtxNum} (hk : i.context = some k) (hpull : pulls k i = false)
    (c d : Context) : effect i (some c) = effect i (some d) := by
  cases i with
  | step j => cases hk; simp [pulls] at hpull
  | next j => cases hk; simp [pulls] at hpull
  | _ => rfl

/-- No command reads the registers of an invalid context (rule R36, log 1). -/
theorem effect_eq_of_sameSeen {c d : Context} (h : c.SameSeen d) (i : Instr) :
    effect i (some c) = effect i (some d) := by
  obtain ⟨hv, hregs⟩ := h
  have hadvance : Effect.advanceOf c = Effect.advanceOf d := by
    rw [Effect.advanceOf, Effect.advanceOf, ← hv]
    split
    case isTrue hc => rw [hregs hc]
    case isFalse => rfl
  cases i with
  | step k => exact hadvance
  | next k => exact hadvance
  | _ => rfl

theorem initialises_of_pulls {i : Instr} {k : CtxNum} (hpull : pulls k i = true) : initialises k i = false := by
  obtain rfl | rfl := of_decide_eq_true hpull <;> rfl

/-! ### The register file after a command -/

@[simp] theorem writeBack_length (i : Instr) (w : Option Context) (cs : List Context) :
    (writeBack i w cs).length = cs.length := by
  unfold writeBack
  split
  · exact List.length_set
  · rfl

@[simp] theorem ctxsAfter_length (i : Instr) (cs : List Context) : (ctxsAfter i cs).length = cs.length :=
  writeBack_length i _ cs

@[simp] theorem State.after_nctx (s : State) (i : Instr) : (s.after i).nctx = s.nctx := ctxsAfter_length i s.ctxs

theorem writeBack_writeBack (i : Instr) (w : Option Context) (cs : List Context) :
    writeBack i w (writeBack i w cs) = writeBack i w cs := by
  cases hk : i.context <;> cases w <;> simp [writeBack, hk]

theorem target_of_context {i : Instr} {k : CtxNum} (hk : i.context = some k) (cs : List Context) :
    target i cs = cs[k.toNat]? := by
  rw [target, hk, Option.bind_some]

theorem writeBack_of_context {i : Instr} {k : CtxNum} (hk : i.context = some k) (w : Option Context)
    (cs : List Context) : writeBack i w cs = w.elim cs (cs.set k.toNat ·) := by
  cases w <;> simp [writeBack, hk]

/-- A command leaves every context that it does not name (rule R28). -/
theorem ctxsAfter_other {i : Instr} {j : Nat} (hj : ∀ k, i.context = some k → j ≠ k.toNat) (cs : List Context) :
    (ctxsAfter i cs)[j]? = cs[j]? := by
  unfold ctxsAfter writeBack
  split
  case h_1 k c hk hw => exact List.getElem?_set_ne (Ne.symm (hj k hk))
  case h_2 => rfl

/-- The context that a command names afterwards: what was written, or else what it held. -/
theorem ctxsAfter_own {i : Instr} {k : CtxNum} (hk : i.context = some k) (cs : List Context) :
    (ctxsAfter i cs)[k.toNat]? = cs[k.toNat]?.map ((effect i cs[k.toNat]?).write.getD ·) := by
  rw [ctxsAfter, target_of_context hk, writeBack_of_context hk]
  cases (effect i cs[k.toNat]?).write with
  | none => simp
  | some d => by_cases hlt : k.toNat < cs.length <;> simp [hlt]

/-- Commands that name no context leave all of them (rule R155). -/
theorem ctxsAfter_of_no_context {i : Instr} (hk : i.context = none) (cs : List Context) : ctxsAfter i cs = cs := by
  simp [ctxsAfter, writeBack, hk]

theorem ctxsAfter_of_not_ok {i : Instr} {cs : List Context} (hno : answeredOk (responseOf i cs) = false) :
    ctxsAfter i cs = cs := by
  rw [ctxsAfter, (effect_shape i _).write_eq_none hno, writeBack_none]

/-- A context afterwards is one from before or the one that was written. -/
theorem mem_ctxsAfter {i : Instr} {cs : List Context} {d : Context} (h : d ∈ ctxsAfter i cs) :
    d ∈ cs ∨ (effect i (target i cs)).write = some d := by
  unfold ctxsAfter writeBack at h
  split at h
  case h_1 k c hk hw => exact (List.mem_or_eq_of_mem_set h).imp_right fun hd => by rw [hw, hd]
  case h_2 => exact .inl h

theorem ctxsAfter_of_ne {i : Instr} {k : CtxNum} (hk : i.context ≠ some k) (cs : List Context) :
    (ctxsAfter i cs)[k.toNat]? = cs[k.toNat]? :=
  ctxsAfter_other (fun j hj hkj => hk (by rw [hj, BitVec.eq_of_toNat_eq hkj])) cs

/-- What a command does to context `k` where it holds `c`: it leaves it, or initialises it, or advances its instance. -/
theorem ctxsAfter_cases (i : Instr) {k : CtxNum} {c : Context} {cs : List Context} (hc : cs[k.toNat]? = some c) :
    (ctxsAfter i cs)[k.toNat]? = some c ∨
    (initialises k i = true ∧ ∃ sd p, (ctxsAfter i cs)[k.toNat]? = some (freshContext sd p)) ∨
    (pulls k i = true ∧ c.v = true ∧ (ctxsAfter i cs)[k.toNat]? = some ⟨true, (stepFn c.regs).1⟩) := by
  by_cases hk : i.context = some k
  · rw [ctxsAfter_own hk, hc, Option.map_some]
    cases hw : (effect i (some c)).write with
    | none => exact .inl rfl
    | some d =>
      obtain ⟨j, hj, hcase⟩ := (effect_shape i (some c)).of_write hw
      obtain rfl : j = k := Option.some.inj (hj.symm.trans hk)
      rcases hcase with ⟨hinit, sd, p, -, rfl⟩ | ⟨hpull, r, hoc, rfl⟩
      · exact .inr (.inl ⟨hinit, sd, p, rfl⟩)
      · cases hoc
        exact .inr (.inr ⟨hpull, rfl, rfl⟩)
  · exact .inl ((ctxsAfter_of_ne hk cs).trans hc)

/-! ### The statements -/

/-- Commands with the same effect on the same context have the same outcome. -/
theorem exec_congr {i j : Instr} (hctx : i.context = j.context) (heff : effect i = effect j) (s : State) :
    exec i s = exec j s := by
  simp only [exec_eq_after, State.after, State.apply, writeBack, target, hctx, heff]

/-- Settles O15: the effect on an absent context is the error, which is one word. -/
theorem meaningOfAbsentContextIsIllegalCommand : Obligations.MeaningOfAbsentContextIsIllegalCommand := by
  unfold Obligations.MeaningOfAbsentContextIsIllegalCommand
  intro s i k hk habsent
  have htarget : target i s.ctxs = none := by rw [target_of_context hk, List.getElem?_eq_none habsent]
  rw [exec_eq_after, State.after, htarget, effect_absent hk, ← State.raise_eq_apply]
  rfl

/-- Settles O17: seeds 0 and 1 have the same fresh words; a pattern that is not zero is its own seed word. -/
theorem zeroSeedIsSeedOneAndNoOtherTwoAgree : Obligations.ZeroSeedIsSeedOneAndNoOtherTwoAgree := by
  unfold Obligations.ZeroSeedIsSeedOneAndNoOtherTwoAgree
  refine ⟨fun s k len a c x1 x2 => ?_, fun r q hne hr hq heq => hne ?_⟩
  · exact ⟨exec_congr rfl rfl s, exec_congr rfl rfl s, exec_congr rfl rfl s, exec_congr rfl rfl s,
      exec_congr rfl rfl s, exec_congr rfl rfl s⟩
  · have htoNat := congrArg BitVec.toNat heq
    have hr0 : r.toNat ≠ 0 := fun h => hr (BitVec.eq_of_toNat_eq h)
    have hq0 : q.toNat ≠ 0 := fun h => hq (BitVec.eq_of_toNat_eq h)
    rw [seedword_toNat, seedword_toNat, if_neg hr0, if_neg hq0] at htoNat
    exact BitVec.eq_of_toNat_eq htoNat

/-- An initialisation twice in a row leaves what it leaves once (rule R63). -/
theorem ctxsAfter_idem {i : Instr} {k : CtxNum} (hk : i.context = some k) (hpull : pulls k i = false)
    (cs : List Context) : ctxsAfter i (ctxsAfter i cs) = ctxsAfter i cs := by
  have hown := ctxsAfter_own hk cs
  cases hc : cs[k.toNat]? with
  | none =>
    have hsame : ctxsAfter i cs = cs := by
      rw [ctxsAfter, target_of_context hk, hc, effect_absent hk, Effect.error, writeBack_none]
    rw [hsame, hsame]
  | some c =>
    rw [hc, Option.map_some] at hown
    have heff : effect i (target i (ctxsAfter i cs)) = effect i (target i cs) := by
      rw [target_of_context hk, target_of_context hk, hown, hc]
      exact effect_eq_of_not_pulls hk hpull _ _
    calc ctxsAfter i (ctxsAfter i cs)
      _ = writeBack i (effect i (target i cs)).write (ctxsAfter i cs) := by rw [ctxsAfter, heff]
      _ = ctxsAfter i cs := writeBack_writeBack i _ cs

/-- Settles O19: an initialisation writes the same words again; a bulk command reads no context, so its effect is the
same again. -/
theorem initialisationIsIdempotentAndBulkRepeatable : Obligations.InitialisationIsIdempotentAndBulkRepeatable := by
  unfold Obligations.InitialisationIsIdempotentAndBulkRepeatable
  refine ⟨fun s i k hk hpull => ?_, fun s i hk => ?_⟩
  · exact ⟨_, _, exec_eq_after i s, exec_eq_after i _, ctxsAfter_idem hk hpull s.ctxs⟩
  · have hctxs : (s.after i).ctxs = s.ctxs := ctxsAfter_of_no_context hk s.ctxs
    refine ⟨_, _, responseOf i s.ctxs, exec_eq_after i s, exec_eq_after i _, hctxs, ?_, s.after_rsps i, ?_⟩
    · rw [State.after_ctxs, ctxsAfter_of_no_context hk, hctxs]
    · rw [State.after_rsps, hctxs]

/-- Settles O20: a command changes the state by its effect alone, and one that pulls a context initialises none. -/
theorem commandsChangeOnlyTheirContextAndRespond : Obligations.CommandsChangeOnlyTheirContextAndRespond := by
  unfold Obligations.CommandsChangeOnlyTheirContextAndRespond
  intro i s t hexec
  obtain rfl := eq_after_of_exec hexec
  refine ⟨s.after_nctx i, s.after_cmds i, s.after_schedule i, ?_, fun j hj => ctxsAfter_other hj s.ctxs,
    fun k c d hpull hc hd => ?_⟩
  · obtain ⟨h, data, hwords⟩ := (effect_shape i (target i s.ctxs)).words_eq_cons
    exact ⟨h, data, congrArg (s.rsps ++ ·) hwords⟩
  · rw [State.after_ctxs] at hd
    rcases ctxsAfter_cases i hc with hsame | ⟨hinit, -⟩ | ⟨-, hv, hnext⟩
    · cases hsame.symm.trans hd
      exact ⟨rfl, rfl⟩
    · rw [initialises_of_pulls hpull] at hinit
      cases hinit
    · cases hnext.symm.trans hd
      exact ⟨hv.symm, stepFn_a c.regs⟩

/-- Settles O24: a data word converts a 32-bit integer, and every conversion is below the pattern of 1.0. -/
theorem dataWordsLieInTheUnitInterval : Obligations.DataWordsLieInTheUnitInterval := by
  unfold Obligations.DataWordsLieInTheUnitInterval
  intro i s t h data hexec hrsps _ w hw
  obtain rfl := eq_after_of_exec hexec
  have hwords : responseOf i s.ctxs = h :: data := List.append_cancel_left hrsps
  obtain ⟨z, hz, rfl⟩ := (effect_shape i (target i s.ctxs)).data_word w (by rw [← responseOf, hwords]; exact hw)
  exact ⟨⟨z, hz, rfl⟩, (f64bits_le hz).trans_lt (by decide)⟩

end Sys2Proof.Machine

/-! PROOFS. The step of the machine: whose turn it is, what the engine makes of its stream, and what a step can do to
the register file (20_memory.md rules R51 to R57; 30_encoding.md rules R77 to R82; 70_reset_and_hazards.md rule
R230). -/

namespace Sys2Proof

/-! ### The decoder on short and on whole commands -/

/-- A command whose last word is missing waits (rule R81). -/
theorem decode_of_short {nctx : Nat} {h : Word} {ws : List Word} (hshort : (h :: ws).length < cmdLength (opcField h)) :
    decode nctx (h :: ws) = .wait := by
  simp only [decode, if_pos hshort]

/-- A whole command is read or refused, and exactly its words are taken (rules R77, R82). -/
theorem decode_of_whole {nctx : Nat} {h : Word} {ws : List Word} (hwhole : cmdLength (opcField h) ≤ (h :: ws).length) :
    (∃ i, decode nctx (h :: ws) = .command i ((h :: ws).drop (cmdLength (opcField h)))) ∨
    (∃ why, decode nctx (h :: ws) = .illegal why ((h :: ws).drop (cmdLength (opcField h)))) := by
  by_cases hread : ∃ i, readCommand nctx ((h :: ws).take (cmdLength (opcField h))) = .ok i
  · obtain ⟨i, hi⟩ := hread
    exact .inl ⟨i, by simp only [decode, if_neg (Nat.not_lt.mpr hwhole), hi]⟩
  · exact .inr (decode_of_not_read hwhole fun i hi => hread ⟨i, hi⟩)

end Sys2Proof

namespace Sys2Proof.Machine

/-! ### Turns -/

theorem step_of_engineMoves {s : State} {ts : List Turn} (h : s.EngineMoves ts) :
    step s = { s with schedule := ts }.engineTurn := by
  rcases h with ⟨hs, rfl⟩ | hs
  · rw [step, State.turn, hs]
    obtain ⟨cs, ws, rs, sched⟩ := s
    cases hs
    rfl
  · rw [step, State.turn, hs]

theorem step_of_host {s : State} {m : HostMove} {ts : List Turn} (h : s.schedule = .host m :: ts) :
    step s = .next ({ s with schedule := ts }.hostMove m) := by
  rw [step, State.turn, h]

/-- A turn is the engine's or one move of the host (rule R55). -/
theorem State.turn_cases (s : State) : (∃ ts, s.EngineMoves ts) ∨ (∃ m ts, s.schedule = .host m :: ts) := by
  cases hs : s.schedule with
  | nil => exact .inl ⟨[], .inl ⟨hs, rfl⟩⟩
  | cons t ts =>
    cases t with
    | engine => exact .inl ⟨ts, .inr hs⟩
    | host m => exact .inr ⟨m, ts, rfl⟩

/-! ### The engine's turn -/

/-- The engine passes where no whole command has arrived (rule R81, log 5). -/
theorem State.engineTurn_of_rest {s : State} (h : decode s.nctx s.cmds = .idle ∨ decode s.nctx s.cmds = .wait) :
    s.engineTurn = .next s := by
  rcases h with h | h <;> rw [State.engineTurn, h]

theorem State.engineTurn_of_command {s : State} {i : Instr} {rest : List Word}
    (h : decode s.nctx s.cmds = .command i rest) : s.engineTurn = exec i { s with cmds := rest } := by
  rw [State.engineTurn, h]

theorem State.engineTurn_completes (s : State) : ∃ t, s.engineTurn = .next t := by
  cases hdec : decode s.nctx s.cmds with
  | idle => exact ⟨_, State.engineTurn_of_rest (.inl hdec)⟩
  | wait => exact ⟨_, State.engineTurn_of_rest (.inr hdec)⟩
  | illegal why rest => exact ⟨_, State.engineTurn_of_illegal hdec⟩
  | command i rest => exact ⟨_, (State.engineTurn_of_command hdec).trans (exec_eq_after i _)⟩

/-- Settles O28: the engine's turn runs what the decoder read. -/
theorem stepRunsTheDecodedCommand : Obligations.StepRunsTheDecodedCommand := by
  unfold Obligations.StepRunsTheDecodedCommand
  intro s ts hmoves
  refine ⟨step_of_engineMoves hmoves, fun i rest hdec => ?_⟩
  rw [step_of_engineMoves hmoves]
  exact State.engineTurn_of_command hdec

/-- Settles O32: the host's moves and the engine's turn all answer a next state. -/
theorem everyStepAnswersANextState : Obligations.EveryStepAnswersANextState := by
  unfold Obligations.EveryStepAnswersANextState
  intro s
  rcases s.turn_cases with ⟨ts, hmoves⟩ | ⟨m, ts, hhost⟩
  · rw [step_of_engineMoves hmoves]
    exact State.engineTurn_completes _
  · exact ⟨_, step_of_host hhost⟩

/-- Settles O33: the three moves are those of the host's turn. -/
theorem hostMovesChangeOneStream : Obligations.HostMovesChangeOneStream := by
  unfold Obligations.HostMovesChangeOneStream
  intro s ts
  refine ⟨fun ws hhost => step_of_host hhost, fun w ws hhost hrsps => ?_, fun hhost hrsps => ?_⟩ <;>
    rw [step_of_host hhost, State.hostMove, hrsps] <;> rfl

/-- Settles O34: the reset event and the state at reset hold reset contexts alone. -/
theorem resetEndsEveryInstance : Obligations.ResetEndsEveryInstance := by
  unfold Obligations.ResetEndsEveryInstance
  refine ⟨fun s ts hhost => ?_, fun n => ⟨State.resetWith_nctx n, rfl, rfl, fun c hc => ?_⟩,
    ⟨Config.nctx, by decide, by decide, rfl⟩⟩
  · refine ⟨_, step_of_host hhost, State.hostMove_nctx _ _, rfl, rfl, rfl, fun c hc => ?_⟩
    obtain ⟨_, _, rfl⟩ := List.mem_map.mp hc
    rfl
  · rw [List.eq_of_mem_replicate hc, Context.reset_v]

/-- Settles O30: an empty stream is idle and an incomplete command waits. -/
theorem incompleteCommandChangesNothing : Obligations.IncompleteCommandChangesNothing := by
  unfold Obligations.IncompleteCommandChangesNothing
  intro s ts hmoves hshort
  rw [step_of_engineMoves hmoves]
  refine State.engineTurn_of_rest ?_
  show decode s.nctx s.cmds = .idle ∨ decode s.nctx s.cmds = .wait
  cases hcmds : s.cmds with
  | nil => exact .inl rfl
  | cons h ws =>
    have hlen := hshort h ws hcmds
    rw [← opcField_toNat, ← cmdLength_eq, hcmds] at hlen
    exact .inr (decode_of_short hlen)

/-- Settles O31: a whole command is read and answered by its meaning, or refused and answered `IllegalCommand`. -/
theorem wholeCommandIsConsumedAndAnsweredOnce : Obligations.WholeCommandIsConsumedAndAnsweredOnce := by
  unfold Obligations.WholeCommandIsConsumedAndAnsweredOnce
  intro s ts h ws hmoves hcmds opc len hwhole
  have hlen : cmdLength (opcField h) = len := by rw [cmdLength_eq, opcField_toNat]
  rw [step_of_engineMoves hmoves]
  rw [hcmds, ← hlen] at hwhole ⊢
  rcases decode_of_whole (nctx := s.nctx) hwhole with ⟨i, hdec⟩ | ⟨why, hdec⟩ <;> rw [← hcmds] at hdec ⊢
  · obtain ⟨t, hexec, g, data, hrsps, hresp, -⟩ :=
      exec_respondsOnce i { s with cmds := s.cmds.drop (cmdLength (opcField h)), schedule := ts }
    refine ⟨t, g, data, (State.engineTurn_of_command (s := { s with schedule := ts }) hdec).trans hexec, ?_⟩
    obtain rfl := eq_after_of_exec hexec
    exact ⟨State.after_cmds _ i, State.after_schedule _ i, State.after_nctx _ i, hrsps, hresp⟩
  · exact ⟨_, _, [], State.engineTurn_of_illegal hdec, rfl, rfl, rfl, rfl, isResponse_error .illegalCommand⟩

/-! ### Steps on encoded commands -/

/-- With the words of a well-formed command at the head, the engine's step is its meaning (rules R82, R88). -/
theorem step_encode {s : State} {ts : List Turn} {i : Instr} (hmoves : s.EngineMoves ts)
    (hwf : i.wellFormed s.nctx = true) (rest : List Word) :
    step { s with cmds := encode i ++ rest } = exec i.core { s with cmds := rest, schedule := ts } := by
  have hmoves' : { s with cmds := encode i ++ rest }.EngineMoves ts := hmoves
  rw [step_of_engineMoves hmoves']
  exact State.engineTurn_of_command (decodeOfEncodeIsTheCommand s.nctx i rest hwf)

/-- Settles O18: with the default values the parameter check passes and the constructed words are the default ones. -/
theorem defaultParametersGiveTheDefaultCommands : Obligations.DefaultParametersGiveTheDefaultCommands := by
  unfold Obligations.DefaultParametersGiveTheDefaultCommands
  intro s ts k sd len rest hmoves hk
  constructor
  · have hinitp : (Instr.initp k sd 916905990 13579 362436069 77465321).wellFormed s.nctx = true := decide_eq_true hk
    have hinit : (Instr.init k sd).wellFormed s.nctx = true := decide_eq_true hk
    rw [step_encode hmoves hinitp, step_encode hmoves hinit]
    exact exec_congr rfl rfl _
  · rw [step_encode hmoves rfl, step_encode hmoves rfl]
    exact exec_congr rfl rfl _

theorem engineMoves_engineFirst (s : State) :
    State.EngineMoves { s with schedule := engineFirst s.schedule } s.schedule := by
  cases hs : s.schedule with
  | nil => exact .inl ⟨rfl, rfl⟩
  | cons t ts => exact .inr rfl

/-- The words of a placed instruction are no more than its header's opcode asks for (log 6). -/
theorem tableCommand_length_le (nbits w : Nat) :
    (tableCommand nbits w).length ≤ cmdLength (opcField (cmdWord (tableCommand nbits w) 0)) := by
  rw [tableCommand, cmdWord_take _ (cmdLength_pos _), List.length_take]
  exact Nat.min_le_left _ _

/-- A table word that decodes is the encoding of one command and nothing more (log 6). -/
theorem tableCommand_eq_encode {nbits w : Nat} {i : Instr} (h : decodeTableWord nbits w = some i) :
    tableCommand nbits w = encode i ∧ i.wellFormed Config.nctx = true ∧ i.core = i := by
  rw [decodeTableWord] at h
  cases hdec : decode Config.nctx (tableCommand nbits w) with
  | command j rest =>
    rw [hdec] at h
    obtain rfl : j = i := Option.some.inj h
    obtain ⟨hwords, hwf, hcore⟩ := encodeOfDecodeIsTheWords _ _ _ _ hdec
    refine ⟨?_, hwf, hcore⟩
    have hle := tableCommand_length_le nbits w
    have hlen := encode_length j
    have hhead : cmdWord (encode j ++ rest) 0 = cmdWord (encode j) 0 := by
      rw [cmdWord, cmdWord, List.getD_append _ _ _ _ (hlen ▸ cmdLength_pos _)]
    rw [hwords, hhead, ← hlen, List.length_append] at hle
    rw [hwords, List.length_eq_zero_iff.mp (show rest.length = 0 by omega), List.append_nil]
  | _ => rw [hdec] at h; cases h

/-- Settles O36: the placed words are the command's encoding, and the turn is the engine's. -/
theorem placedCommandRunsNext : Obligations.PlacedCommandRunsNext := by
  unfold Obligations.PlacedCommandRunsNext
  intro s nbits w i hn hdec
  obtain ⟨hwords, hwf, hcore⟩ := tableCommand_eq_encode hdec
  rw [← hn] at hwf
  have hstep := step_encode (engineMoves_engineFirst s) hwf s.cmds
  rw [hcore, ← hwords] at hstep
  exact hstep

/-! ### What a step can do to the register file -/

/-- A step leaves the register file, resets it, or applies the command that the engine decoded to it. -/
theorem step_ctxs_cases {s t : State} (h : step s = .next t) :
    t.ctxs = s.ctxs ∨
    (t.ctxs = s.ctxs.map (fun _ => Context.reset) ∧ ∃ ts, s.schedule = .host .reset :: ts) ∨
    (∃ ts i rest, s.EngineMoves ts ∧ decode s.nctx s.cmds = .command i rest ∧ t.ctxs = ctxsAfter i s.ctxs) := by
  rcases s.turn_cases with ⟨ts, hmoves⟩ | ⟨m, ts, hhost⟩
  · rw [step_of_engineMoves hmoves] at h
    rcases State.engineTurn_cases h with ⟨-, rfl⟩ | ⟨_, _, -, rfl⟩ | ⟨i, rest, hdec, hexec⟩
    · exact .inl rfl
    · exact .inl rfl
    · obtain rfl := eq_after_of_exec hexec
      exact .inr (.inr ⟨ts, i, rest, hmoves, hdec, rfl⟩)
  · rw [step_of_host hhost] at h
    cases h
    cases m with
    | append ws => exact .inl rfl
    | remove => exact .inl rfl
    | reset => exact .inr (.inl ⟨rfl, ts, hhost⟩)

/-- Settles O35: a command leaves a valid context, advances it with its multiplier, or initialises it. -/
theorem validFlagAndMultiplierPersist : Obligations.ValidFlagAndMultiplierPersist := by
  unfold Obligations.ValidFlagAndMultiplierPersist
  intro s t k c hstep hc hv hnoReset
  rcases step_ctxs_cases hstep with hsame | ⟨-, ts, hreset⟩ | ⟨ts, i, rest, hmoves, hdec, hafter⟩
  · exact ⟨c, by rw [hsame, hc], hv, fun hne => absurd rfl hne⟩
  · exact absurd hreset (hnoReset ts)
  · rw [hafter]
    rcases ctxsAfter_cases i hc with hsame | ⟨hinit, sd, p, hfresh⟩ | ⟨-, -, hnext⟩
    · exact ⟨c, hsame, hv, fun hne => absurd rfl hne⟩
    · exact ⟨_, hfresh, rfl, fun _ => ⟨ts, i, rest, hmoves, hdec, hinit⟩⟩
    · exact ⟨_, hnext, rfl, fun hne => absurd (stepFn_a c.regs) hne⟩

/-! ### The invariant -/

/-- A construction leaves lawful words (rules R101, R102). -/
theorem lawful_fresh (sd : Pattern) {p : Params} (hp : p.c.toNat < p.a.toNat) : (freshRegs sd p).Lawful := by
  have hseed := (seedwordSubstitutesZeroAndZeroExtends sd).2.1
  refine ⟨fun ha => ?_, .inl ⟨fun hx => ?_, seedword_lt sd, hp⟩⟩
  · rw [freshRegs_a] at ha
    rw [ha] at hp
    exact absurd hp (Nat.not_lt_zero _)
  · rw [freshRegs_x] at hx
    rw [hx] at hseed
    exact absurd hseed (by decide)

theorem Regs.Lawful.step {r : Regs} (h : r.Lawful) : (stepFn r).1.Lawful := by
  obtain ⟨ha, -⟩ := h
  exact ⟨ha, .inr ⟨lowWord_lt _, carryWord_lt _⟩⟩

/-- The contexts a command leaves are lawful where it is applied to lawful ones. -/
theorem lawful_ctxsAfter {cs : List Context} (h : ∀ c ∈ cs, c.v = true → c.regs.Lawful) (i : Instr) :
    ∀ d ∈ ctxsAfter i cs, d.v = true → d.regs.Lawful := by
  intro d hd hv
  rcases mem_ctxsAfter hd with hmem | hw
  · exact h d hmem hv
  · obtain ⟨k, hk, hcase⟩ := (effect_shape i _).of_write hw
    rcases hcase with ⟨-, sd, p, hp, rfl⟩ | ⟨-, r, hr, rfl⟩
    · exact lawful_fresh sd hp
    · rw [target_of_context hk] at hr
      exact (h _ (List.mem_of_getElem? hr) rfl).step

/-- Settles O37: a step keeps the contexts, resets them, or applies a command, each of which keeps them lawful. -/
theorem stepKeepsTheInvariant : Obligations.StepKeepsTheInvariant := by
  unfold Obligations.StepKeepsTheInvariant
  intro s t hinv hstep
  rw [State.Inv, State.nctx] at hinv ⊢
  obtain ⟨hn, hlawful⟩ := hinv
  rcases step_ctxs_cases hstep with hsame | ⟨hreset, -⟩ | ⟨_, i, _, -, -, hafter⟩
  · rw [hsame]
    exact ⟨hn, hlawful⟩
  · rw [hreset, List.length_map]
    refine ⟨hn, fun d hd hv => ?_⟩
    obtain ⟨_, _, rfl⟩ := List.mem_map.mp hd
    cases hv
  · rw [hafter, ctxsAfter_length]
    exact ⟨hn, lawful_ctxsAfter hlawful i⟩

theorem resetWith_inv {n : Nat} (h1 : 1 ≤ n) (hn : n ≤ 256) : (State.resetWith n).Inv := by
  refine ⟨by rw [State.resetWith_nctx]; exact ⟨h1, hn⟩, fun c hc hv => ?_⟩
  rw [List.eq_of_mem_replicate hc] at hv
  cases hv

/-- Settles O38: no context is valid after reset. -/
theorem resetMeetsTheInvariant : Obligations.ResetMeetsTheInvariant := by
  unfold Obligations.ResetMeetsTheInvariant
  exact ⟨fun n h1 hn => resetWith_inv h1 hn, resetWith_inv (by decide) (by decide)⟩

end Sys2Proof.Machine

/-! PROOFS. Runs of commands: independence of the contexts, the samples of one stream, removal of failing commands
(45_properties.md rules R180 to R191; 20_memory.md rule R59). -/

namespace Sys2Proof.Machine

/-! ### Runs and answers -/

theorem runCmds_cons (i : Instr) (is : List Instr) (s : State) : runCmds (i :: is) s = runCmds is (s.after i) := by
  rw [runCmds, exec_eq_after]

/-- A run completes with the effects of its commands in order. -/
theorem runCmds_eq (is : List Instr) (s : State) : runCmds is s = .next (is.foldl State.after s) := by
  induction is generalizing s with
  | nil => rfl
  | cons i is ih => rw [runCmds_cons, ih, List.foldl_cons]

theorem answers_cons (i : Instr) (is : List Instr) (s : State) :
    answers (i :: is) s = (i, responseOf i s.ctxs) :: answers is (s.after i) := by
  rw [answers, exec_eq_after]
  simp

/-! ### Independence -/

/-- What a command does to the context it names depends on that context alone (rule R190). -/
theorem effect_congr_of_own {i : Instr} {k : CtxNum} (hk : i.context = some k) {cs ds : List Context}
    (h : cs[k.toNat]? = ds[k.toNat]?) :
    (ctxsAfter i cs)[k.toNat]? = (ctxsAfter i ds)[k.toNat]? ∧ responseOf i cs = responseOf i ds := by
  rw [ctxsAfter_own hk, ctxsAfter_own hk, responseOf, responseOf, target_of_context hk, target_of_context hk, h]
  exact ⟨rfl, rfl⟩

/-- The commands of a run that name context `k`. -/
def ownCommands (k : CtxNum) (is : List Instr) : List Instr := is.filter fun i => decide (i.context = some k)

/-- Context `k` and its responses are the same in a run and in the run of its own commands, from states that agree on
it. -/
theorem own_run_agrees (k : CtxNum) (is : List Instr) {s u : State} (h : s.ctxs[k.toNat]? = u.ctxs[k.toNat]?) :
    (is.foldl State.after s).ctxs[k.toNat]? = ((ownCommands k is).foldl State.after u).ctxs[k.toNat]? ∧
    (answers is s).filter (fun p => decide (p.1.context = some k)) = answers (ownCommands k is) u := by
  induction is generalizing s u with
  | nil => exact ⟨h, rfl⟩
  | cons i is ih =>
    rw [answers_cons]
    by_cases hk : i.context = some k
    · obtain ⟨hctx, hresp⟩ := effect_congr_of_own hk h
      obtain ⟨hrun, hans⟩ := ih (s := s.after i) (u := u.after i) hctx
      have hown : ownCommands k (i :: is) = i :: ownCommands k is := List.filter_cons_of_pos (by simpa using hk)
      rw [hown, answers_cons, List.filter_cons_of_pos (by simpa using hk), hans, hresp]
      exact ⟨hrun, rfl⟩
    · obtain ⟨hrun, hans⟩ := ih (s := s.after i) (u := u) ((ctxsAfter_of_ne hk s.ctxs).trans h)
      have hown : ownCommands k (i :: is) = ownCommands k is := List.filter_cons_of_neg (by simpa using hk)
      rw [hown, List.filter_cons_of_neg (by simpa using hk)]
      exact ⟨hrun, hans⟩

/-- Settles O39: by induction on the run, from states that agree on the context. -/
theorem contextsAreIndependent : Obligations.ContextsAreIndependent := by
  unfold Obligations.ContextsAreIndependent
  intro k is s own
  obtain ⟨hctx, hans⟩ := own_run_agrees k is (s := s) (u := s) rfl
  exact ⟨_, _, runCmds_eq is s, runCmds_eq own s, hctx, hans⟩

/-! ### Failing commands -/

theorem succeeding_cons (i : Instr) (is : List Instr) (s : State) :
    succeeding (i :: is) s =
      if answeredOk (responseOf i s.ctxs) = true then i :: succeeding is (s.after i)
      else succeeding is (s.after i) := by
  rw [succeeding, answers_cons, List.filter_cons]
  split <;> rfl

/-- A run and the run of its succeeding commands leave the same registers, from states that agree on the registers. -/
theorem succeeding_run_agrees (is : List Instr) {s u : State} (h : s.ctxs = u.ctxs) :
    (is.foldl State.after s).ctxs = ((succeeding is s).foldl State.after u).ctxs ∧
    (answers is s).filter (fun p => answeredOk p.2) = answers (succeeding is s) u := by
  induction is generalizing s u with
  | nil => exact ⟨h, rfl⟩
  | cons i is ih =>
    rw [succeeding_cons, answers_cons, List.filter_cons, List.foldl_cons]
    by_cases hok : answeredOk (responseOf i s.ctxs) = true
    · obtain ⟨hrun, hans⟩ := ih (s := s.after i) (u := u.after i) (congrArg (ctxsAfter i) h)
      rw [if_pos hok, if_pos hok, answers_cons, hans, h]
      exact ⟨hrun, rfl⟩
    · rw [if_neg hok, if_neg hok]
      exact ih ((ctxsAfter_of_not_ok (Bool.eq_false_of_not_eq_true hok)).trans h)

/-- Settles O42: by induction on the run; a failing command leaves the registers, and no effect depends on anything
else. -/
theorem failingCommandsCanBeRemoved : Obligations.FailingCommandsCanBeRemoved := by
  unfold Obligations.FailingCommandsCanBeRemoved
  intro is s
  obtain ⟨hctxs, hans⟩ := succeeding_run_agrees is (s := s) (u := s) rfl
  exact ⟨_, _, runCmds_eq is s, runCmds_eq _ s, hctxs, hans⟩

/-! ### The samples of a stream -/

/-- A pull of a living instance: its next words and its sample (rule R129). -/
theorem pull_of_valid {i : Instr} {k : CtxNum} {r : Regs} {cs : List Context} (hpull : pulls k i = true)
    (hr : cs[k.toNat]? = some ⟨true, r⟩) :
    (ctxsAfter i cs)[k.toNat]? = some ⟨true, (stepFn r).1⟩ ∧ responseOf i cs = [1, (stepFn r).2] := by
  have hk : i.context = some k := by obtain rfl | rfl := of_decide_eq_true hpull <;> rfl
  have heff : effect i (some ⟨true, r⟩) = .advance r := by obtain rfl | rfl := of_decide_eq_true hpull <;> rfl
  rw [ctxsAfter_own hk, responseOf, target_of_context hk, hr, heff]
  exact ⟨rfl, rfl⟩

/-- Only a pull or an initialisation of a context changes it (rules R28, R29). -/
theorem ctxsAfter_of_neither {i : Instr} {k : CtxNum} {c : Context} {cs : List Context} (hpull : pulls k i = false)
    (hinit : initialises k i = false) (hc : cs[k.toNat]? = some c) : (ctxsAfter i cs)[k.toNat]? = some c := by
  rcases ctxsAfter_cases i hc with hsame | ⟨h, -⟩ | ⟨h, -⟩
  · exact hsame
  · rw [hinit] at h; cases h
  · rw [hpull] at h; cases h

/-- The first `n` samples of a stream, each as the response to its pull (rules R84, R85). -/
def pulledWords (r : Regs) (n : Nat) : List (List Word) := (List.range n).map fun j => [1, streamOut r j]

theorem pulledWords_succ (r : Regs) (n : Nat) :
    pulledWords r (n + 1) = [1, (stepFn r).2] :: pulledWords (stepFn r).1 n := by
  rw [pulledWords, List.range_succ_eq_map, List.map_cons, List.map_map]
  rfl

/-- The responses to the pulls of context `k` in a run. -/
def pullAnswers (k : CtxNum) (is : List Instr) (s : State) : List (List Word) :=
  ((answers is s).filter fun p => pulls k p.1).map fun p => p.2

theorem pullAnswers_cons (k : CtxNum) (i : Instr) (is : List Instr) (s : State) :
    pullAnswers k (i :: is) s =
      if pulls k i = true then responseOf i s.ctxs :: pullAnswers k is (s.after i)
      else pullAnswers k is (s.after i) := by
  rw [pullAnswers, answers_cons, List.filter_cons]
  split <;> rfl

/-- From a living instance on, as long as nobody initialises its context, its pulls return its stream in order. -/
theorem pulls_return_stream {k : CtxNum} (is : List Instr) {s : State} {r : Regs}
    (hr : s.ctxs[k.toNat]? = some ⟨true, r⟩) (hinit : ∀ i ∈ is, initialises k i = false) :
    pullAnswers k is s = pulledWords r (is.countP (pulls k)) := by
  induction is generalizing s r with
  | nil => rfl
  | cons i is ih =>
    have hrest : ∀ j ∈ is, initialises k j = false := fun j hj => hinit j (List.mem_cons_of_mem _ hj)
    rw [pullAnswers_cons, List.countP_cons]
    by_cases hpull : pulls k i = true
    · obtain ⟨hnext, hresp⟩ := pull_of_valid hpull hr
      rw [if_pos hpull, if_pos hpull, pulledWords_succ, hresp, ih (s := s.after i) hnext hrest]
    · have hkeep := ctxsAfter_of_neither (Bool.eq_false_of_not_eq_true hpull) (hinit i List.mem_cons_self) hr
      rw [if_neg hpull, if_neg hpull, Nat.add_zero, ih (s := s.after i) hkeep hrest]

/-- The command constructs the instance of seed `sd` and parameters `p` in context `k`, wherever there is one. -/
def Starts (k : CtxNum) (start : Instr) (sd : Pattern) (p : Params) : Prop :=
  start.context = some k ∧ ∀ c, effect start (some c) = .construct sd p

theorem starts_init (k : CtxNum) (sd : Pattern) : Starts k (.init k sd) sd Config.defaults := ⟨rfl, fun _ => rfl⟩

theorem starts_seq (k : CtxNum) (sd : Pattern) : Starts k (.seq k sd) sd Config.defaults := ⟨rfl, fun _ => rfl⟩

theorem starts_initp {a c : Word} (hp : c.toNat < a.toNat) (k : CtxNum) (sd : Pattern) (x1 x2 : Word) :
    Starts k (.initp k sd a c x1 x2) sd ⟨a, c, x1, x2⟩ := ⟨rfl, fun _ => if_pos hp⟩

theorem starts_seqp {a c : Word} (hp : c.toNat < a.toNat) (k : CtxNum) (sd : Pattern) (x1 x2 : Word) :
    Starts k (.seqp k sd a c x1 x2) sd ⟨a, c, x1, x2⟩ := ⟨rfl, fun _ => if_pos hp⟩

/-- On an existing context a start leaves a living instance and is answered `OK` (rules R104, R105). -/
theorem Starts.after {k : CtxNum} {start : Instr} {sd : Pattern} {p : Params} (h : Starts k start sd p)
    {cs : List Context} (hk : k.toNat < cs.length) :
    (ctxsAfter start cs)[k.toNat]? = some ⟨true, freshRegs sd p⟩ ∧ responseOf start cs = [0] := by
  obtain ⟨hctx, heff⟩ := h
  rw [ctxsAfter_own hctx, responseOf, target_of_context hctx, List.getElem?_eq_getElem hk, heff]
  exact ⟨rfl, rfl⟩

/-- Settles O41: a successful initialisation leaves a living instance with the fresh words of its operands. -/
theorem pulledSamplesAreTheStream : Obligations.PulledSamplesAreTheStream := by
  unfold Obligations.PulledSamplesAreTheStream
  intro s k start r is hk hstart hinit
  obtain ⟨sd, p, hstarts, rfl⟩ : ∃ sd p, Starts k start sd p ∧ r = freshRegs sd p := by
    rcases hstart with ⟨sd, rfl | rfl, rfl⟩ | ⟨sd, a, c, x1, x2, rfl | rfl, hp, rfl⟩
    · exact ⟨sd, _, starts_init k sd, rfl⟩
    · exact ⟨sd, _, starts_seq k sd, rfl⟩
    · exact ⟨sd, _, starts_initp hp k sd x1 x2, rfl⟩
    · exact ⟨sd, _, starts_seqp hp k sd x1 x2, rfl⟩
  exact ⟨_, exec_eq_after start s, pulls_return_stream is (hstarts.after hk).1 hinit⟩

/-- A run of pulls of a living instance appends its first samples, each as one response. -/
theorem run_pulls_rsps {k : CtxNum} {i : Instr} (hpull : pulls k i = true) (n : Nat) {s : State} {r : Regs}
    (hr : s.ctxs[k.toNat]? = some ⟨true, r⟩) :
    ((List.replicate n i).foldl State.after s).rsps = s.rsps ++ (pulledWords r n).flatten := by
  induction n generalizing s r with
  | zero => exact (List.append_nil _).symm
  | succ n ih =>
    obtain ⟨hnext, hresp⟩ := pull_of_valid hpull hr
    rw [List.replicate_succ, List.foldl_cons, ih (s := s.after i) hnext, pulledWords_succ, List.flatten_cons,
      State.after_rsps, hresp, List.append_assoc]

/-- A start and `n` pulls append the empty `OK` and the first `n` samples. -/
theorem run_start_pulls {k : CtxNum} {start i : Instr} {sd : Pattern} {p : Params} (hstart : Starts k start sd p)
    (hpull : pulls k i = true) {s : State} (hk : k.toNat < s.nctx) (n : Nat) :
    ∃ t, runCmds (start :: List.replicate n i) s = .next t ∧
      t.rsps = s.rsps ++ 0 :: ((List.range n).map (streamOut (freshRegs sd p))).flatMap fun w => [1, w] := by
  obtain ⟨hliving, hresp⟩ := hstart.after hk
  refine ⟨_, runCmds_eq _ s, ?_⟩
  rw [List.foldl_cons, run_pulls_rsps hpull n (s := s.after start) hliving, State.after_rsps, hresp, pulledWords,
    List.flatMap_map, List.flatMap_def, List.append_assoc, List.singleton_append]

/-- Settles O40: pulls of either name give the stream of the fresh words, and so does bulk generation. -/
theorem threeAccessPatternsGiveOneStream : Obligations.ThreeAccessPatternsGiveOneStream := by
  unfold Obligations.ThreeAccessPatternsGiveOneStream
  intro s k sd len hk hlen
  have hstep : pulls k (.step k) = true := by simp [pulls]
  have hnext : pulls k (.next k) = true := by simp [pulls]
  refine ⟨fun a c x1 x2 hp => ⟨?_, ?_, ?_⟩, ?_, ?_, ?_⟩
  · exact run_start_pulls (starts_initp hp k sd x1 x2) hstep hk len.toNat
  · exact run_start_pulls (starts_seqp hp k sd x1 x2) hnext hk len.toNat
  · exact ⟨_, exec_genp .., by rw [State.bulkWith_of_carry_lt hp, State.bulk_of_nonneg hlen]; rfl⟩
  · exact run_start_pulls (starts_init k sd) hstep hk len.toNat
  · exact run_start_pulls (starts_seq k sd) hnext hk len.toNat
  · exact ⟨_, exec_gen .., by rw [State.bulk_of_nonneg hlen]; rfl⟩

/-- Settles O16: the default construction, and one step of its words, which is evaluated. -/
theorem knownFirstSampleOfSeedOne : Obligations.KnownFirstSampleOfSeedOne := by
  unfold Obligations.KnownFirstSampleOfSeedOne
  intro s k hk
  have hfirst : stepFn (freshRegs 1 Config.defaults) =
      (⟨0x159A55E5, 0x049E06E9, 0x36A71511, 0, 0x36A6E006⟩, 0x3FCB538A88800000) := by decide
  have hliving : (s.construct k 1 Config.defaults).ctxs[k.toNat]? = some ⟨true, freshRegs 1 Config.defaults⟩ :=
    List.getElem?_set_self hk
  rw [runCmds, exec_init, State.constructDefault_of_lt hk]
  simp only [runCmds, exec_step, State.advance_of_valid hliving, hfirst]
  simp [State.construct_eq]

end Sys2Proof.Machine

/-! PROOFS. Runs of the machine: an encoded program, coming to rest, and what no run observes (20_memory.md rules R55 to
R57; 30_encoding.md rule R81; 70_reset_and_hazards.md rule R235; 10_state.md rule R36). -/

namespace Sys2Proof.Machine

theorem run_succ_of_step {M : Host.Core} {s t : M.State} (h : M.step s = .next t) (n : Nat) :
    M.run (n + 1) s = M.run n t := by
  simp only [Host.Core.run, h]

/-- A run of the machine is its first step and the run from there. -/
theorem coreRun_succ {s t : State} (h : step s = .next t) (n : Nat) :
    Host.Core.run core (n + 1) s = Host.Core.run core n t :=
  run_succ_of_step (M := core) h n

/-! ### An encoded program -/

/-- With an empty schedule and the words of a well-formed command at the head, a step runs what it stands for (rules
R57, R82, R88). -/
theorem step_of_encoded {s : State} {i : Instr} {rest : List Word} (hsched : s.schedule = [])
    (hwf : i.wellFormed s.nctx = true) (hcmds : s.cmds = encode i ++ rest) :
    step s = .next ({ s with cmds := rest }.after i.core) := by
  have hmoves : s.EngineMoves [] := .inl ⟨hsched, rfl⟩
  have hdec : decode s.nctx s.cmds = .command i.core rest := by
    rw [hcmds]
    exact decodeOfEncodeIsTheCommand s.nctx i rest hwf
  rw [(stepRunsTheDecodedCommand s [] hmoves).2 _ _ hdec, exec_eq_after, ← hsched]

/-- Settles O43: by induction on the program; one step reads and runs its first command. -/
theorem encodedProgramRunsInOrder : Obligations.EncodedProgramRunsInOrder := by
  unfold Obligations.EncodedProgramRunsInOrder
  intro is
  induction is with
  | nil =>
    intro s rest _ _ hcmds
    have hrest : s = { s with cmds := rest } := by rw [← show s.cmds = rest from hcmds]
    exact congrArg Host.Outcome.next hrest
  | cons i is ih =>
    intro s rest hwf hsched hcmds
    rw [List.flatMap_cons, List.append_assoc] at hcmds
    have hstep := step_of_encoded hsched (hwf i List.mem_cons_self) hcmds
    have hrest : ∀ j ∈ is, j.wellFormed (State.after { s with cmds := is.flatMap encode ++ rest } i.core).nctx = true :=
      fun j hj => by
        rw [State.after_nctx]
        exact hwf j (List.mem_cons_of_mem _ hj)
    rw [List.length_cons, coreRun_succ hstep, List.map_cons, runCmds_cons]
    exact ih _ rest hrest hsched rfl

/-! ### Coming to rest -/

theorem parsesWhole_nil : ParsesWhole [] := ⟨[], rfl, by simp⟩

/-- Words parse when the first command is whole and the words after it parse (rule R235). -/
theorem parsesWhole_cons_iff (h : Word) (ws : List Word) :
    ParsesWhole (h :: ws) ↔
      cmdLength (opcField h) ≤ (h :: ws).length ∧ ParsesWhole ((h :: ws).drop (cmdLength (opcField h))) := by
  constructor
  · rintro ⟨cmds, hflat, hall⟩
    cases cmds with
    | nil => cases hflat
    | cons cmd cmds =>
      obtain ⟨g, tl, rfl, hlen⟩ := hall cmd List.mem_cons_self
      rw [List.flatten_cons] at hflat
      obtain ⟨rfl, -⟩ := List.cons.inj hflat
      rw [hflat, ← hlen, List.drop_left, List.length_append]
      exact ⟨Nat.le_add_right _ _, cmds, rfl, fun c hc => hall c (List.mem_cons_of_mem _ hc)⟩
  · rintro ⟨hwhole, cmds, hflat, hall⟩
    refine ⟨(h :: ws).take (cmdLength (opcField h)) :: cmds, ?_, ?_⟩
    · rw [List.flatten_cons, ← hflat, List.take_append_drop]
    · intro cmd hcmd
      rcases List.mem_cons.mp hcmd with rfl | hcmd
      · obtain ⟨n, hn⟩ := Nat.exists_eq_add_of_le' (cmdLength_pos (opcField h))
        rw [hn] at hwhole ⊢
        refine ⟨h, ws.take n, List.take_succ_cons, ?_⟩
        rw [List.length_take, hn, Nat.min_eq_left hwhole]
      · exact hall cmd hcmd

/-- The engine has nothing to run: the stream is empty or ends inside its first command (rules R81, R82). -/
def State.AtRest (s : State) : Prop := decode s.nctx s.cmds = .idle ∨ decode s.nctx s.cmds = .wait

theorem State.AtRest.run {s : State} (h : s.AtRest) (hsched : s.schedule = []) (n : Nat) :
    Host.Core.run core n s = .next s := by
  have hstep : step s = .next s := by
    rw [step, State.turn, hsched]
    exact State.engineTurn_of_rest h
  induction n with
  | zero => rfl
  | succ n ih => rw [coreRun_succ hstep, ih]

/-- As many steps as there are words, or more, bring the engine to rest, with no words left exactly where they parse. -/
theorem comes_to_rest (n : Nat) {s : State} (hsched : s.schedule = []) (hn : s.cmds.length ≤ n) :
    ∃ t, Host.Core.run core n s = .next t ∧ t.AtRest ∧ (t.cmds = [] ↔ ParsesWhole s.cmds) := by
  induction n generalizing s with
  | zero =>
    have hcmds : s.cmds = [] := List.length_eq_zero_iff.mp (Nat.le_zero.mp hn)
    refine ⟨s, rfl, .inl (by rw [hcmds]; rfl), ?_⟩
    rw [hcmds]
    exact ⟨fun _ => parsesWhole_nil, fun _ => rfl⟩
  | succ n ih =>
    cases hcmds : s.cmds with
    | nil =>
      have hrest : s.AtRest := .inl (by rw [hcmds]; rfl)
      exact ⟨s, hrest.run hsched _, hrest, by rw [hcmds]; exact ⟨fun _ => parsesWhole_nil, fun _ => rfl⟩⟩
    | cons h ws =>
      by_cases hwhole : cmdLength (opcField h) ≤ (h :: ws).length
      · rw [cmdLength_eq, opcField_toNat] at hwhole
        obtain ⟨u, _, _, hstep, hu, husched, -⟩ :=
          wholeCommandIsConsumedAndAnsweredOnce s [] h ws (.inl ⟨hsched, rfl⟩) hcmds (by rwa [hcmds])
        rw [← opcField_toNat, ← cmdLength_eq] at hwhole hu
        have hpos := cmdLength_pos (opcField h)
        obtain ⟨t, hrun, hrest, hend⟩ := ih husched (by rw [hu, List.length_drop]; omega)
        refine ⟨t, (coreRun_succ hstep n).trans hrun, hrest, ?_⟩
        rw [hend, hu, hcmds, parsesWhole_cons_iff, and_iff_right hwhole]
      · have hrest : s.AtRest := .inr (by rw [hcmds]; exact decode_of_short (Nat.not_le.mp hwhole))
        refine ⟨s, hrest.run hsched _, hrest, ?_⟩
        rw [hcmds, parsesWhole_cons_iff]
        exact ⟨fun hnil => absurd hnil (List.cons_ne_nil h ws), fun hparse => absurd hparse.1 hwhole⟩

/-- Settles O44: each step before the rest takes one whole command, so there are no more of them than words. -/
theorem runsEndCleanlyExactlyWhenWordsParse : Obligations.RunsEndCleanlyExactlyWhenWordsParse := by
  unfold Obligations.RunsEndCleanlyExactlyWhenWordsParse
  intro s hsched
  exact comes_to_rest s.cmds.length hsched (Nat.le_refl _)

/-! ### What no run observes -/

theorem Context.SameSeen.refl (c : Context) : c.SameSeen c := ⟨rfl, fun _ => rfl⟩

/-- Writing related elements at one place keeps two lists related. -/
theorem forall₂_set {α β : Type} {R : α → β → Prop} {l : List α} {m : List β} (h : List.Forall₂ R l m) {a : α} {b : β}
    (hab : R a b) (n : Nat) : List.Forall₂ R (l.set n a) (m.set n b) := by
  induction h generalizing n with
  | nil => exact .nil
  | cons hxy hrest ih =>
    cases n with
    | zero => exact .cons hab hrest
    | succ n => exact .cons hxy (ih n)

/-- Related lists hold related elements at each place. -/
theorem forall₂_getElem? {α β : Type} {R : α → β → Prop} {l : List α} {m : List β} (h : List.Forall₂ R l m) (n : Nat) :
    Option.Rel R l[n]? m[n]? := by
  induction h generalizing n with
  | nil => exact .none
  | cons hxy hrest ih =>
    cases n with
    | zero => exact .some hxy
    | succ n => exact ih n

/-- A command does the same on register files that differ in invalid contexts alone. -/
theorem effect_target_congr {cs ds : List Context} (h : List.Forall₂ Context.SameSeen cs ds) (i : Instr) :
    effect i (target i cs) = effect i (target i ds) := by
  cases hk : i.context with
  | none => rw [target, target, hk]; rfl
  | some k =>
    rw [target_of_context hk, target_of_context hk]
    have hrel := forall₂_getElem? h k.toNat
    revert hrel
    generalize cs[k.toNat]? = oc
    generalize ds[k.toNat]? = od
    rintro (hcd | _)
    · exact effect_eq_of_sameSeen hcd i
    · rfl

theorem ctxsAfter_sameSeen {cs ds : List Context} (h : List.Forall₂ Context.SameSeen cs ds) (i : Instr) :
    List.Forall₂ Context.SameSeen (ctxsAfter i cs) (ctxsAfter i ds) := by
  rw [ctxsAfter, ctxsAfter, effect_target_congr h i]
  unfold writeBack
  split
  case h_1 k c _ _ => exact forall₂_set h (Context.SameSeen.refl c) k.toNat
  case h_2 => exact h

theorem State.SameSeen.after {s t : State} (h : s.SameSeen t) (i : Instr) : (s.after i).SameSeen (t.after i) := by
  obtain ⟨hctxs, hcmds, hrsps, hsched⟩ := h
  refine ⟨ctxsAfter_sameSeen hctxs i, hcmds, ?_, hsched⟩
  rw [State.after_rsps, State.after_rsps, responseOf, responseOf, effect_target_congr hctxs i, hrsps]

/-- Nothing that the host does depends on the registers. -/
theorem State.SameSeen.hostMove {s t : State} (h : s.SameSeen t) (m : HostMove) :
    (s.hostMove m).SameSeen (t.hostMove m) := by
  obtain ⟨hctxs, hcmds, hrsps, hsched⟩ := h
  cases m with
  | append ws => exact ⟨hctxs, congrArg (· ++ ws) hcmds, hrsps, hsched⟩
  | remove => exact ⟨hctxs, hcmds, congrArg List.tail hrsps, hsched⟩
  | reset =>
    refine ⟨?_, rfl, rfl, hsched⟩
    rw [State.hostMove, State.hostMove, State.resetEvent_ctxs, State.resetEvent_ctxs, List.forall₂_map_left_iff,
      List.forall₂_map_right_iff]
    exact hctxs.imp fun _ _ _ => Context.SameSeen.refl _

theorem State.SameSeen.engineTurn {s t : State} (h : s.SameSeen t) :
    ∃ s' t', s.engineTurn = .next s' ∧ t.engineTurn = .next t' ∧ s'.SameSeen t' := by
  obtain ⟨hctxs, hcmds, hrsps, hsched⟩ := h
  have hdecode : decode t.nctx t.cmds = decode s.nctx s.cmds := by
    rw [State.nctx, State.nctx, hctxs.length_eq, hcmds]
  cases hdec : decode s.nctx s.cmds with
  | idle =>
    exact ⟨s, t, State.engineTurn_of_rest (.inl hdec), State.engineTurn_of_rest (.inl (hdecode.trans hdec)),
      hctxs, hcmds, hrsps, hsched⟩
  | wait =>
    exact ⟨s, t, State.engineTurn_of_rest (.inr hdec), State.engineTurn_of_rest (.inr (hdecode.trans hdec)),
      hctxs, hcmds, hrsps, hsched⟩
  | illegal why rest =>
    exact ⟨_, _, State.engineTurn_of_illegal hdec, State.engineTurn_of_illegal (hdecode.trans hdec),
      hctxs, rfl, congrArg (· ++ _) hrsps, hsched⟩
  | command i rest =>
    have hrest : State.SameSeen { s with cmds := rest } { t with cmds := rest } := ⟨hctxs, rfl, hrsps, hsched⟩
    exact ⟨_, _, (State.engineTurn_of_command hdec).trans (exec_eq_after i _),
      (State.engineTurn_of_command (hdecode.trans hdec)).trans (exec_eq_after i _), hrest.after i⟩

theorem State.SameSeen.step {s t : State} (h : s.SameSeen t) :
    ∃ s' t', step s = .next s' ∧ step t = .next t' ∧ s'.SameSeen t' := by
  obtain ⟨hctxs, hcmds, hrsps, hsched⟩ := h
  have hts (ts : List Turn) : State.SameSeen { s with schedule := ts } { t with schedule := ts } :=
    ⟨hctxs, hcmds, hrsps, rfl⟩
  rcases s.turn_cases with ⟨ts, hmoves⟩ | ⟨m, ts, hhost⟩
  · have hmoves' : t.EngineMoves ts := by rwa [State.EngineMoves, ← hsched]
    rw [step_of_engineMoves hmoves, step_of_engineMoves hmoves']
    exact (hts ts).engineTurn
  · rw [step_of_host hhost, step_of_host (hsched ▸ hhost)]
    exact ⟨_, _, rfl, rfl, (hts ts).hostMove m⟩

/-- Settles O45: every step keeps the two states the same but for the registers of invalid contexts. -/
theorem unspecifiedRegistersAreNeverObserved : Obligations.UnspecifiedRegistersAreNeverObserved := by
  unfold Obligations.UnspecifiedRegistersAreNeverObserved
  intro s t n h
  induction n generalizing s t with
  | zero => exact ⟨s, t, rfl, rfl, h⟩
  | succ n ih =>
    obtain ⟨s', t', hs, ht, h'⟩ := h.step
    rw [coreRun_succ hs, coreRun_succ ht]
    exact ih s' t' h'

end Sys2Proof.Machine
